-- ==== Sys2Proof/Word.lean ====
section
/-! DEFINITION. The value types of the encoder: bytes, byte strings, the 34-bit instruction word. -/

namespace Sys2Proof

/-- One byte of a line, a token or a record (00_scope.md R12, D2). -/
abbrev Byte := BitVec 8

/-- A finite sequence of bytes: a line, a pattern, a stream's contents (00_scope.md R12). -/
abbrev Bytes := List Byte

/-- A token: a byte string on port TOKS (10_state.md R24). That it is non-empty and free of WS_SET bytes is
checked by `WellFormed`. -/
abbrev Token := List Byte

/-- The instruction word, bits 33 down to 0 (10_state.md R30, 00_scope.md R8 WORD_W). -/
abbrev Word := BitVec 34

/-- What one operand contributes to the word: port `field` of OPND_ENC, 32 bits (10_state.md R25). -/
abbrev Contribution := BitVec 32

end Sys2Proof
end

