-- ==== Sys2Proof/Config.lean ====
section
/-! DEFINITION. The parameters the source leaves open (00_scope.md R9). The model takes them as an argument: a
machine carries one `Params` in its state, no step writes it, and a claim about every state is a claim about every
choice of the parameters. Their defaults are `defaultParams` (Machine/Parameters.lean). -/

namespace Sys2Proof

/-- EMPTY_OPERAND_POLICY: what becomes of an operand at loc 0 or 1 with no bank name and no digit
(43_operand_encoder.md R130, D5). -/
inductive EmptyOperandPolicy where
  | ignore
  | reject
  deriving DecidableEq, Repr

/-- One part of a diagnostic message: fixed text, or the line's text verbatim (45_batch_translator.md R177). -/
inductive DiagPart where
  | text (bytes : Bytes)
  | line
  deriving DecidableEq, Repr

/-- DIAG_FORMAT: the message of each per-line error, as a sequence of parts (45_batch_translator.md R177, D10). -/
structure DiagFormat where
  unknownOperation : List DiagPart
  invalidOperandPosition : List DiagPart
  deriving DecidableEq, Repr

/-- One value of WORD_BYTE_ORDER: for each byte of a word's byte form, in order, which byte of the word it is, byte `k`
being word bits `8k+7` down to `8k` (DESIGN CHOICE, log 8: any order, with or without padding). -/
abbrev ByteOrder := List Nat

/-- The open parameters of 00_scope.md R9 that the encoder and its driver depend on. -/
structure Params where
  /-- WS_SET, the token separator bytes (D3). -/
  wsSet : List Byte
  /-- DIGIT_SET, each digit byte with the value it denotes (D4). -/
  digitSet : List (Byte × Nat)
  /-- EMPTY_OPERAND_POLICY (D5). -/
  emptyOperand : EmptyOperandPolicy
  /-- DIAG_FORMAT (D10). -/
  diag : DiagFormat
  /-- IDX_BITS of a bounded realization; none: IDX is an unbounded natural (D13). -/
  idxBits : Option Nat
  /-- MAX_LINE_BYTES of a bounded realization; none: any finite line (D20). -/
  maxLineBytes : Option Nat
  /-- WORD_BYTE_ORDER; none: a word has no byte form (D18, 20_memory.md R41). Only `wordBytes` takes it. -/
  wordByteOrder : Option ByteOrder
  deriving DecidableEq, Repr

end Sys2Proof
end

