-- ==== Sys2Proof/Syntax.lean ====
section
/-! DEFINITION. The instructions as the machine receives them. An instruction is one text line (30_encoding.md R74);
its constructor is the operation the mnemonic selects, and its argument is the line cut into tokens, with the
separator bytes kept, because the record copies the line byte for byte (45_batch_translator.md R184). -/

namespace Sys2Proof

/-- A token with the separator bytes that stand before it on the line. -/
structure Lexeme where
  sep : Bytes
  tok : Token
  deriving DecidableEq, Repr

/-- A line that has a mnemonic token: token 0, the further tokens, and the separator bytes after the last token
(30_encoding.md R74). The operand tokens are `operands` at positions 0, 1, 2; later ones are ignored. -/
structure SourceLine where
  mnemonic : Lexeme
  operands : List Lexeme
  trail : Bytes
  deriving DecidableEq, Repr

/-- The ten operations (00_scope.md R2). -/
inductive Op where
  | nop | jump | exit | mov | fill | add | mul | mac | mad | sacc
  deriving DecidableEq, Repr

/-- The seven operand bank selectors (00_scope.md R2, 43_operand_encoder.md R121). -/
inductive Bank where
  | bank | grfA | grfB | srfA | srfM | lIq | rIq
  deriving DecidableEq, Repr

/-- The per-transaction errors (60_exceptions.md R190). -/
inductive EncodeError where
  | unknownOperation
  | invalidOperandPosition
  deriving DecidableEq, Repr

/-- The instructions: one constructor per row of spec/opcode_table.json (41_opcode_table.md R92 to R101). -/
inductive Instr where
  | nop (src : SourceLine)
  | jump (src : SourceLine)
  | exit (src : SourceLine)
  | mov (src : SourceLine)
  | fill (src : SourceLine)
  | add (src : SourceLine)
  | mul (src : SourceLine)
  | mac (src : SourceLine)
  | mad (src : SourceLine)
  | sacc (src : SourceLine)
  deriving DecidableEq, Repr

/-- The operation of an instruction. -/
def Instr.op : Instr → Op
  | .nop _ => .nop
  | .jump _ => .jump
  | .exit _ => .exit
  | .mov _ => .mov
  | .fill _ => .fill
  | .add _ => .add
  | .mul _ => .mul
  | .mac _ => .mac
  | .mad _ => .mad
  | .sacc _ => .sacc

/-- The line of an instruction. -/
def Instr.src : Instr → SourceLine
  | .nop src => src
  | .jump src => src
  | .exit src => src
  | .mov src => src
  | .fill src => src
  | .add src => src
  | .mul src => src
  | .mac src => src
  | .mad src => src
  | .sacc src => src

/-- The instruction with a given operation and line. -/
def Instr.ofOp : Op → SourceLine → Instr
  | .nop, src => .nop src
  | .jump, src => .jump src
  | .exit, src => .exit src
  | .mov, src => .mov src
  | .fill, src => .fill src
  | .add, src => .add src
  | .mul, src => .mul src
  | .mac, src => .mac src
  | .mad, src => .mad src
  | .sacc, src => .sacc src

end Sys2Proof
end

