-- ==== Sys2Proof/Machine/Text.lean ====
section
/-! DEFINITION. Byte strings: pattern search, digits, decimal numbers, tokens and line framing
(00_scope.md R12, R14; 45_batch_translator.md R171, R172, R178). -/

namespace Sys2Proof

/-- The ASCII bytes of a quoted pattern (00_scope.md R12). -/
def ascii (s : String) : Bytes := s.toList.map fun c => BitVec.ofNat 8 c.toNat

/-- LF, which ends a line (45_batch_translator.md R171). -/
def lf : Byte := 0x0A

/-- CR, part of the line ending when it stands directly before LF (45_batch_translator.md R171). -/
def cr : Byte := 0x0D

/-- `contains(t, p)`: the bytes of `p` occur as a contiguous run somewhere in `t` (00_scope.md R12). -/
def contains : Bytes → Bytes → Bool
  | [], p => p.isEmpty
  | b :: t, p => p.isPrefixOf (b :: t) || contains t p

/-- `first_match(T, t)`: the code of the first entry whose pattern `t` contains (00_scope.md R14). -/
def firstMatch {α : Type} : List (Bytes × α) → Bytes → Option α
  | [], _ => none
  | (p, c) :: rest, t => if contains t p then some c else firstMatch rest t

/-- `digits(t)`: the bytes of `t` that lie in DIGIT_SET, in order, each as the value it denotes (00_scope.md R12). -/
def digits (p : Params) (t : Bytes) : List Nat := t.filterMap fun b => p.digitSet.lookup b

/-- `decimal(s)`: the number a digit string denotes in base 10 (00_scope.md R12). -/
def decimal (ds : List Nat) : Nat := ds.foldl (fun acc d => acc * 10 + d) 0

/-- The bytes of a lexeme as they stand on the line. -/
def Lexeme.text (x : Lexeme) : Bytes := x.sep ++ x.tok

/-- The bytes of a line, verbatim (45_batch_translator.md R184). -/
def SourceLine.text (src : SourceLine) : Bytes :=
  src.mnemonic.text ++ (src.operands.flatMap Lexeme.text ++ src.trail)

/-- The operand tokens of a line, in order (30_encoding.md R74). -/
def SourceLine.operandTokens (src : SourceLine) : List Token := src.operands.map Lexeme.tok

/-- The token list of a line: port TOKS (10_state.md R24). -/
def SourceLine.tokens (src : SourceLine) : List Token := src.mnemonic.tok :: src.operandTokens

/-- Whether a byte separates tokens, for a given WS_SET. -/
def isSeparator (ws : List Byte) (b : Byte) : Bool := ws.contains b

/-- Put one byte in front of a line already cut into lexemes: a separator byte joins the separators before the first
token, another byte joins the first token if that token starts right after it, and else is a token of its own. -/
def pushByte (ws : List Byte) (b : Byte) : List Lexeme × Bytes → List Lexeme × Bytes
  | ([], trail) => if isSeparator ws b then ([], b :: trail) else ([⟨[], [b]⟩], trail)
  | (x :: xs, trail) =>
    if isSeparator ws b then (⟨b :: x.sep, x.tok⟩ :: xs, trail)
    else if x.sep.isEmpty then (⟨[], b :: x.tok⟩ :: xs, trail)
    else (⟨[], [b]⟩ :: x :: xs, trail)

/-- Cut a line into its tokens, each with the separators before it, and the separators after the last one
(00_scope.md R12, 45_batch_translator.md R172). -/
def splitLine (ws : List Byte) : Bytes → List Lexeme × Bytes
  | [] => ([], [])
  | b :: rest => pushByte ws b (splitLine ws rest)

/-- `tokens(line)`: the maximal non-empty runs of bytes of the line that are not in WS_SET, in order
(00_scope.md R12). -/
def tokens (p : Params) (line : Bytes) : List Token := (splitLine p.wsSet line).1.map Lexeme.tok

/-- The first line of a stream and the bytes after its line ending (45_batch_translator.md R171). -/
def cutLine : Bytes → Bytes × Bytes
  | [] => ([], [])
  | b :: rest =>
    if b = lf then ([], rest)
    else if b = cr ∧ rest.head? = some lf then ([], rest.tail)
    else match cutLine rest with
      | (line, after) => (b :: line, after)

/-- `ReadLine()`: the next line and the rest of the stream, or none at EOF (00_scope.md R13,
45_batch_translator.md R171). -/
def readLine (stream : Bytes) : Option (Bytes × Bytes) :=
  if stream.isEmpty then none else some (cutLine stream)

/-- All the lines of a stream, in order (45_batch_translator.md R171). -/
def streamLines : Bytes → List Bytes
  | [] => []
  | b :: rest =>
    if b = lf then [] :: streamLines rest
    else if b = cr ∧ rest.head? = some lf then streamLines rest
    else match streamLines rest with
      | [] => [[b]]
      | line :: more => (b :: line) :: more

/-- The ASCII byte of a decimal digit (00_scope.md R12). -/
def digitByte (d : Nat) : Byte := BitVec.ofNat 8 (0x30 + d)

/-- The decimal digits of `n` in front of `acc`; `fuel` bounds their number. -/
def decimalTextAux : Nat → Nat → Bytes → Bytes
  | 0, _, acc => acc
  | fuel + 1, n, acc =>
    if n < 10 then digitByte n :: acc else decimalTextAux fuel (n / 10) (digitByte (n % 10) :: acc)

/-- A number in decimal ASCII: no sign, no leading zeros, no padding (45_batch_translator.md R178). -/
def decimalText (n : Nat) : Bytes := decimalTextAux (n.log2 + 1) n []

end Sys2Proof
end

