-- ==== Sys2Proof/Machine/OpcodeTable.lean ====
section
/-! DEFINITION. The Opcode Table (41_opcode_table.md): mnemonic token to 4-bit operation code. -/

namespace Sys2Proof

/-- The operation codes (30_encoding.md R68). -/
def Op.code : Op → BitVec 4
  | .nop => 0b0000
  | .jump => 0b0001
  | .exit => 0b0010
  | .mov => 0b0100
  | .fill => 0b0101
  | .add => 0b1000
  | .mul => 0b1001
  | .mac => 0b1010
  | .mad => 0b1011
  | .sacc => 0b1100

/-- OPC_TABLE, in priority order: entry 0 is tested first (41_opcode_table.md R91). -/
def opcTable : List (Bytes × Op) :=
  [(ascii "NOP", .nop), (ascii "JUMP", .jump), (ascii "EXIT", .exit), (ascii "MOV", .mov), (ascii "FILL", .fill),
   (ascii "ADD", .add), (ascii "MUL", .mul), (ascii "MAC", .mac), (ascii "MAD", .mad), (ascii "SACC", .sacc)]

/-- The operation a mnemonic token selects, or none on a miss (41_opcode_table.md R90, R102). -/
def opcLookup (m : Token) : Option Op := firstMatch opcTable m

/-- The ports of OPC_LUT: `hit` and `code`; on a miss the code is 0000 (41_opcode_table.md R90). -/
def opcLut (m : Token) : Bool × BitVec 4 :=
  match opcLookup m with
  | none => (false, 0b0000)
  | some op => (true, op.code)

/-- The opcode contribution: the code at word bits 31:28 (41_opcode_table.md R90). -/
def opcodeContribution (code : BitVec 4) : Word := code.setWidth 34 <<< 28

end Sys2Proof
end

