-- ==== Sys2Proof/Machine/Flags.lean ====
section
/-! DEFINITION. The Flag Decoder (42_flag_decoder.md): the AAM bit of a mnemonic token. The hardware has no other flag
(10_state.md R27). -/

namespace Sys2Proof

/-- FLAG_DEC: whether the mnemonic token contains `AAM` or `(A` (42_flag_decoder.md R110). -/
def flagDec (m : Token) : Bool := contains m (ascii "AAM") || contains m (ascii "(A")

/-- The flag contribution: the AAM bit at word bit 15 (42_flag_decoder.md R110). -/
def flagContribution (aam : Bool) : Word := (BitVec.ofBool aam).setWidth 34 <<< 15

end Sys2Proof
end

