-- ==== Sys2Proof/Machine/Operands.lean ====
section
/-! DEFINITION. The Operand Encoder (43_operand_encoder.md): one operand token and its position to a 32-bit
contribution. -/

namespace Sys2Proof

/-- The bank codes (43_operand_encoder.md R121). The encoder treats them as opaque (R141): it only places them, in
`bankField`, and no check depends on which bank a token names. -/
def Bank.code : Bank → BitVec 3
  | .bank => 0b000
  | .grfA => 0b001
  | .grfB => 0b010
  | .srfA => 0b011
  | .srfM => 0b100
  | .lIq => 0b101
  | .rIq => 0b110

/-- BANK_TABLE, in priority order (43_operand_encoder.md R121). -/
def bankTable : List (Bytes × Bank) :=
  [(ascii "BANK", .bank), (ascii "GRF_A", .grfA), (ascii "GRF_B", .grfB), (ascii "SRF_A", .srfA),
   (ascii "SRF_M", .srfM), (ascii "L_IQ", .lIq), (ascii "R_IQ", .rIq)]

/-- The bank an operand token names, or none (43_operand_encoder.md R121). -/
def bankOf (t : Token) : Option Bank := firstMatch bankTable t

/-- SHIFT_LUT, bank matched: the shift of the bank code at each position (30_encoding.md R62). -/
def bankShift : Fin 3 → Nat
  | 0 => 25
  | 1 => 22
  | 2 => 19

/-- SHIFT_LUT, bank matched: the shift of the index value at each position (30_encoding.md R62). -/
def bankIndexShift : Fin 3 → Nat
  | 0 => 8
  | 1 => 4
  | 2 => 0

/-- SHIFT_LUT, no bank: the shift of the index value; position 2 is invalid (30_encoding.md R62). -/
def noBankIndexShift : Fin 3 → Option Nat
  | 0 => some 11
  | 1 => some 0
  | 2 => none

/-- `setbit(v, i)` (00_scope.md R11). -/
def setBit (v i : Nat) : Nat := v ||| (1 <<< i)

/-- The magnitude of a token that has an index (43_operand_encoder.md R125). -/
def magnitude (p : Params) (t : Token) : Nat := decimal (digits p t)

/-- Whether a token has an index: it contains a DIGIT_SET byte (43_operand_encoder.md R125). -/
def hasIndex (p : Params) (t : Token) : Bool := !(digits p t).isEmpty

/-- The negative marker, bit 7 (43_operand_encoder.md R126). -/
def markNegative (t : Token) (v : Nat) : Nat := if contains t (ascii "-") then setBit v 7 else v

/-- The direct marker, bit 3 (43_operand_encoder.md R127). -/
def markDirect (t : Token) (v : Nat) : Nat := if contains t (ascii "[A") then v else setBit v 3

/-- The index value before it is shifted: the magnitude with both markers (30_encoding.md R63). Meant for a token
that has an index. -/
def indexValue (p : Params) (t : Token) : Nat := markDirect t (markNegative t (magnitude p t))

/-- The index shift of a token at a position; none where the configuration is invalid (30_encoding.md R62). It depends
on whether a bank matched and not on which one (43_operand_encoder.md R141). -/
def indexShift (t : Token) (loc : Fin 3) : Option Nat :=
  match bankOf t with
  | some _ => some (bankIndexShift loc)
  | none => noBankIndexShift loc

/-- The bank contribution: the code at its place, 0 without a bank (43_operand_encoder.md R122, R123). The code is opaque
(R141). -/
def bankField (t : Token) (loc : Fin 3) : Nat :=
  match bankOf t with
  | some b => b.code.toNat <<< bankShift loc
  | none => 0

/-- OPND_ENC (43_operand_encoder.md R120): the position check (R124), the token without a digit (R129, R130), the width
check (R131), and the contribution (R128). -/
def opndEnc (p : Params) (t : Token) (loc : Fin 3) : Except EncodeError Contribution :=
  match indexShift t loc with
  | none => .error .invalidOperandPosition
  | some s =>
    if hasIndex p t then
      if indexValue p t <<< s ≥ 2 ^ 32 then .error .invalidOperandPosition
      else .ok (BitVec.ofNat 32 (bankField t loc ||| indexValue p t <<< s))
    else if (bankOf t).isNone ∧ p.emptyOperand = .reject then .error .invalidOperandPosition
    else .ok (BitVec.ofNat 32 (bankField t loc))

/-- The hardware realization of the magnitude: a decimal accumulator that saturates at 2^32
(43_operand_encoder.md R140). -/
def saturatingDecimal (ds : List Nat) : Nat := ds.foldl (fun acc d => min (acc * 10 + d) (2 ^ 32)) 0

end Sys2Proof
end

