-- ==== Sys2Proof/Machine/Assembler.lean ====
section
/-! DEFINITION. The Instruction Assembler (44_instruction_assembler.md): one token list to a word or an error. -/

namespace Sys2Proof

/-- The operand positions, in the order the Assembler takes them (44_instruction_assembler.md R155). -/
def operandPositions : List (Fin 3) := [0, 1, 2]

/-- The operand tokens that are encoded, each with its position: at most the first three
(44_instruction_assembler.md R153). -/
def placeOperands (ops : List Token) : List (Token × Fin 3) := ops.zip operandPositions

/-- OR the contributions of placed operands onto a word, in order; the first failing operand ends it
(44_instruction_assembler.md R154, R155). -/
def orOperands (p : Params) : List (Token × Fin 3) → Word → Except EncodeError Word
  | [], w => .ok w
  | (t, loc) :: rest, w =>
    match opndEnc p t loc with
    | .error e => .error e
    | .ok f => orOperands p rest (w ||| f.setWidth 34)

/-- The opcode and flag contributions of an instruction (44_instruction_assembler.md R150). -/
def headWord (op : Op) (m : Token) : Word := opcodeContribution op.code ||| flagContribution (flagDec m)

/-- The word of an operation with a mnemonic token and operand tokens, or an error (44_instruction_assembler.md
R150, after the Opcode Table has hit). -/
def assemble (p : Params) (op : Op) (m : Token) (ops : List Token) : Except EncodeError Word :=
  orOperands p (placeOperands ops) (headWord op m)

/-- ASM: the complete transaction on a token list (44_instruction_assembler.md R150 to R152). -/
def asm (p : Params) : List Token → Except EncodeError Word
  | [] => .error .unknownOperation
  | m :: ops =>
    match opcLookup m with
    | none => .error .unknownOperation
    | some op => assemble p op m ops

/-- The status codes (60_exceptions.md R191). -/
def EncodeError.status : EncodeError → BitVec 2
  | .unknownOperation => 1
  | .invalidOperandPosition => 2

end Sys2Proof
end

