-- ==== Sys2Proof/Machine/Parameters.lean ====
section
/-! DEFINITION. The defaults of the open parameters (00_scope.md R9). -/

namespace Sys2Proof

/-- The default WS_SET: HT, VT, FF, CR, SP (D3). -/
def defaultWsSet : List Byte := [0x09, 0x0B, 0x0C, 0x0D, 0x20]

/-- The default DIGIT_SET: the bytes 0x30 to 0x39, with the digits 0 to 9 (D4, 00_scope.md R12). -/
def defaultDigitSet : List (Byte × Nat) :=
  [(0x30, 0), (0x31, 1), (0x32, 2), (0x33, 3), (0x34, 4), (0x35, 5), (0x36, 6), (0x37, 7), (0x38, 8), (0x39, 9)]

/-- The default messages (45_batch_translator.md R177). -/
def defaultDiag : DiagFormat where
  unknownOperation := [.text (ascii "Unknown operation: "), .line]
  invalidOperandPosition := [.text (ascii "Invalid operand position: "), .line]

/-- The default of every open parameter (00_scope.md R9). -/
def defaultParams : Params where
  wsSet := defaultWsSet
  digitSet := defaultDigitSet
  emptyOperand := .ignore
  diag := defaultDiag
  idxBits := none
  maxLineBytes := none
  wordByteOrder := none

end Sys2Proof
end

