-- ==== Sys2Proof/WellFormed.lean ====
section
/-! DEFINITION. When a term of `Instr` is a line of the input language: its tokens and separators are what cutting the
line gives (00_scope.md R12), and its mnemonic selects its constructor (41_opcode_table.md R90). -/

namespace Sys2Proof

/-- Separator runs hold only WS_SET bytes, and a run between two tokens is not empty. -/
def SourceLine.separatorsOk (p : Params) (src : SourceLine) : Bool :=
  src.mnemonic.sep.all (isSeparator p.wsSet)
    && src.operands.all (fun x => !x.sep.isEmpty && x.sep.all (isSeparator p.wsSet))
    && src.trail.all (isSeparator p.wsSet)

/-- Tokens are non-empty and free of WS_SET bytes (10_state.md R24). -/
def SourceLine.tokensOk (p : Params) (src : SourceLine) : Bool :=
  src.tokens.all fun t => !t.isEmpty && t.all fun b => !isSeparator p.wsSet b

/-- The line's text holds no LF, which would end the line (45_batch_translator.md R171). -/
def SourceLine.noLineFeed (src : SourceLine) : Bool := src.text.all fun b => b != lf

/-- The mnemonic token selects the constructor's operation (41_opcode_table.md R90). -/
def Instr.mnemonicSelects (i : Instr) : Bool := opcLookup i.src.mnemonic.tok == some i.op

/-- A well-formed instruction. -/
def Instr.wf (p : Params) (i : Instr) : Bool :=
  i.src.separatorsOk p && i.src.tokensOk p && i.src.noLineFeed && i.mnemonicSelects

end Sys2Proof
end

