-- ==== Sys2Proof/Decode.lean ====
section
/-! DEFINITION. Decoding and encoding of instructions. The machine reads text: `decode` takes a line to an instruction
and `encode` gives an instruction's line. Of a 34-bit word only the OPC field can be decoded (30_encoding.md R71);
`wordLine` gives one line that has the word as its encoding. -/

namespace Sys2Proof

/-- Why a line is no instruction. The driver reports both as UnknownOperation (44_instruction_assembler.md R151,
R152). -/
inductive DecodeError where
  | blankLine
  | unknownMnemonic
  deriving DecidableEq, Repr

/-- The instruction on a line: cut it into tokens, then look the mnemonic up (45_batch_translator.md R172,
41_opcode_table.md R90). -/
def decode (p : Params) (line : Bytes) : Except DecodeError Instr :=
  match splitLine p.wsSet line with
  | ([], _) => .error .blankLine
  | (m :: ops, trail) =>
    match opcLookup m.tok with
    | none => .error .unknownMnemonic
    | some op => .ok (Instr.ofOp op ⟨m, ops, trail⟩)

/-- The line of an instruction, byte for byte. -/
def encode (i : Instr) : Bytes := i.src.text

/-- The ten operations. -/
def Op.all : List Op := [.nop, .jump, .exit, .mov, .fill, .add, .mul, .mac, .mad, .sacc]

/-- The mask of a row of spec/opcode_table.json (30_encoding.md R71). -/
def opcodeMask : Word := 0x3F0000000

/-- The operation a word carries: the row whose match equals the word under the mask, that is
`w[33:28] = [00, code]` (30_encoding.md R71). -/
def decodeOp (w : Word) : Option Op := Op.all.find? fun op => w &&& opcodeMask == opcodeContribution op.code

/-- The canonical spelling of an operation (30_encoding.md R75). -/
def Op.spelling : Op → Bytes
  | .nop => ascii "NOP"
  | .jump => ascii "JUMP"
  | .exit => ascii "EXIT"
  | .mov => ascii "MOV"
  | .fill => ascii "FILL"
  | .add => ascii "ADD"
  | .mul => ascii "MUL"
  | .mac => ascii "MAC"
  | .mad => ascii "MAD"
  | .sacc => ascii "SACC"

/-- The bits of a word below the OPC field, without the AAM flag: the magnitude of operand 2 in `wordLine`. -/
def wordMagnitude (w : Word) : Nat := (w &&& 0x00FFF7FFF).toNat

/-- A line that encodes to a word whose operation is `op` (DESIGN CHOICE, log 18): the AAM flag in the mnemonic, and
all other bits as an indirect index of bank BANK at operand 2, which is placed unshifted. -/
def lineOfWord (op : Op) (w : Word) : Bytes :=
  op.spelling ++ (if w.getLsbD 15 then ascii "(AAM)" else [])
    ++ (if wordMagnitude w = 0 then [] else ascii " BANK BANK BANK[A" ++ decimalText (wordMagnitude w) ++ ascii "]")

/-- A line that encodes to the word, if the word carries an operation (30_encoding.md R71; log 18). -/
def wordLine (w : Word) : Option Bytes := (decodeOp w).map fun op => lineOfWord op w

/-- The line of a word given as a number; a number of more than 34 bits is no word. -/
def tableWordLine (w : Nat) : Option Bytes := if w < 2 ^ 34 then wordLine (BitVec.ofNat 34 w) else none

/-- The instruction the decoder reads from a word of spec/opcode_table.json's numbering. The block reads text, so the
word is given to it as the line `wordLine` (log 18). -/
def decodeTableWord (_nbits w : Nat) : Option Instr :=
  match tableWordLine w with
  | none => none
  | some line => (decode defaultParams line).toOption

end Sys2Proof
end

