-- ==== Sys2Proof/Machine/State.lean ====
section
/-! DEFINITION. The state of the driver and its ports (10_state.md), the reasons a step can stop, and the state at
the start of a run. -/

namespace Sys2Proof.Machine

/-- Where the run stands: the control position of RUN() (45_batch_translator.md R173). -/
inductive Phase where
  /-- Before RUN's first line. -/
  | start
  /-- In RUN's loop. -/
  | running
  /-- RUN has returned at EOF. -/
  | finished
  /-- RUN has ended with RunAborted (R181). -/
  | aborted
  deriving DecidableEq, Repr

/-- What the driver has of a stream: the caller could not open it, the driver holds it open, or the driver has
released it (45_batch_translator.md R181, R183). -/
inductive Handle where
  | notOpened
  | held
  | released
  deriving DecidableEq, Repr

/-- The result part of an Output Record (10_state.md R31). -/
inductive RecordResult where
  | ok (word : Word)
  | err (error : EncodeError) (message : Bytes)
  deriving DecidableEq, Repr

/-- An Output Record: index, result, and the line's text verbatim (10_state.md R31). -/
structure Record where
  idx : Nat
  result : RecordResult
  line : Bytes
  deriving DecidableEq, Repr

/-- The input stream: its handle and its unread bytes (10_state.md R26). -/
structure InputStream where
  handle : Handle
  unread : Bytes
  deriving DecidableEq, Repr

/-- The output stream: its handle, whether the outside world makes its next write fail (45_batch_translator.md R185),
and the records of this run in emission order. -/
structure OutputStream where
  handle : Handle
  failing : Bool
  records : List Record
  deriving DecidableEq, Repr

/-- The ports of the encoder block during one transaction (10_state.md R24). WORD carries no value unless STATUS
is 0. -/
structure Ports where
  toks : List Token
  status : BitVec 2
  word : Option Word
  deriving DecidableEq, Repr

/-- The machine: the driver, its streams, and the ports of the transaction the latest step presented. `params` is no
state of the machine: it is fixed when the model is built (10_state.md R28) and carried here as the argument
00_scope.md R9 asks for. -/
structure State where
  params : Params
  phase : Phase
  idx : Nat
  source : InputStream
  sink : OutputStream
  ports : Option Ports
  deriving DecidableEq, Repr

/-- Why a step stops. -/
inductive Fault where
  /-- A write to the output stream failed: the run ends with no final state (45_batch_translator.md R185). Raised by
  `emitRecord`. Safe. -/
  | outputFailure
  /-- The run has ended with RunAborted: no further step exists (45_batch_translator.md R181). Raised by `step`. Safe. -/
  | runAborted
  /-- RUN has returned: no further step exists (45_batch_translator.md R173). Raised by `step`. Safe. -/
  | runOver
  deriving DecidableEq, Repr

/-- Why a step is outside the model. -/
inductive Refusal where
  /-- The instruction has no meaning yet. Raised by `exec`'s arms only. Safe. -/
  | notModelled (mnemonic : String)
  /-- The line is longer than MAX_LINE_BYTES of a bounded realization (45_batch_translator.md R186). Raised by
  `translateLine`. Safe. -/
  | lineTooLong
  /-- The line's index does not fit IDX_BITS of a bounded realization (45_batch_translator.md R186). Raised by
  `translateLine`. Safe. -/
  | indexTooWide
  deriving DecidableEq, Repr

/-- The machine at the start of a run (10_state.md R33, 70_reset_and_hazards.md R210): IDX 0, no record, no transaction
presented, default parameters. The streams are held, empty and sound: DESIGN CHOICE (log 14, log 17). -/
def State.reset : State where
  params := defaultParams
  phase := .start
  idx := 0
  source := ⟨.held, []⟩
  sink := ⟨.held, false, []⟩
  ports := none

end Sys2Proof.Machine
end

