-- ==== Sys2Proof/Machine/Render.lean ====
section
/-! DEFINITION. Output Records: how a transaction's result becomes a record, and how a record is rendered as text
(45_batch_translator.md R175 to R179). -/

namespace Sys2Proof.Machine

/-- One part of a message for a line. -/
def diagPartText (line : Bytes) : DiagPart → Bytes
  | .text bytes => bytes
  | .line => line

/-- The diagnostic message of an error on a line (45_batch_translator.md R177). -/
def message (p : Params) (e : EncodeError) (line : Bytes) : Bytes :=
  (match e with
    | .unknownOperation => p.diag.unknownOperation
    | .invalidOperandPosition => p.diag.invalidOperandPosition).flatMap (diagPartText line)

/-- The result part of a record (10_state.md R31). -/
def recordResult (p : Params) (line : Bytes) : Except EncodeError Word → RecordResult
  | .ok w => .ok w
  | .error e => .err e (message p e line)

/-- The ports of a transaction: STATUS 0 and the word, or the error's code and no word (10_state.md R24,
60_exceptions.md R191, R194). -/
def portsOf (toks : List Token) : Except EncodeError Word → Ports
  | .ok w => ⟨toks, 0, some w⟩
  | .error e => ⟨toks, e.status, none⟩

/-- The ports of the encoder block when a token list is presented on TOKS. -/
def encoderPorts (p : Params) (toks : List Token) : Ports := portsOf toks (asm p toks)

/-- The record of a line at an index, as the loop of RUN makes it: `T <- tokens(line)`, `r <- ASM(T)`
(45_batch_translator.md R173). -/
def lineRecord (p : Params) (idx : Nat) (line : Bytes) : Record :=
  ⟨idx, recordResult p line (asm p (tokens p line)), line⟩

/-- The word in binary, MSB first, 34 characters (45_batch_translator.md R175). -/
def renderWord (w : Word) : Bytes :=
  (List.range 34).map fun i => if w.getLsbD (33 - i) then 0x31 else 0x30

/-- The byte form of a word, if WORD_BYTE_ORDER gives it one (20_memory.md R41, D18; log 8). The block never stores a
word as bytes, so no step uses it; bits beyond the word read as 0. -/
def wordBytes (p : Params) (w : Word) : Option Bytes :=
  p.wordByteOrder.map fun order => order.map fun k => w.extractLsb' (8 * k) 8

/-- The text of a record, with its terminator (45_batch_translator.md R175, R176, R179). -/
def Record.render (r : Record) : Bytes :=
  (match r.result with
    | .ok w =>
      ascii "ukernel[" ++ decimalText r.idx ++ ascii "]=0b" ++ renderWord w ++ ascii ";  // " ++ r.line
    | .err _ msg => ascii "Error processing line " ++ decimalText r.idx ++ ascii ": " ++ msg) ++ [lf]

/-- The bytes of this run on the output stream (45_batch_translator.md R179). -/
def State.outputText (s : State) : Bytes := s.sink.records.flatMap Record.render

end Sys2Proof.Machine
end

