-- ==== Sys2Proof/Machine/Ops.lean ====
section
/-! DEFINITION. The named operations on the state: the start and the end of a run, reading a line, emitting a record,
completing a transaction, and taking an error (45_batch_translator.md R173; 60_exceptions.md R194, R195). -/

namespace Sys2Proof.Machine

/-- Release a stream: what is held becomes released (45_batch_translator.md R183). -/
def Handle.release : Handle → Handle
  | .held => .released
  | h => h

/-- Release both streams, on any exit path (45_batch_translator.md R183). -/
def State.releaseStreams (s : State) : State :=
  { s with
    source := ⟨s.source.handle.release, s.source.unread⟩
    sink := ⟨s.sink.handle.release, s.sink.failing, s.sink.records⟩ }

/-- The caller hands over an input stream holding `input`, and an output stream, before a run; each may have failed to
open (45_batch_translator.md R181, R183; 70_reset_and_hazards.md R212). -/
def State.handOver (input : Bytes) (sourceOpen sinkOpen : Bool) (s : State) : State :=
  { s with
    phase := .start
    source := ⟨if sourceOpen then .held else .notOpened, input⟩
    sink := ⟨if sinkOpen then .held else .notOpened, false, []⟩ }

/-- The head of RUN (45_batch_translator.md R173): with a stream that is not open the run ends in RunAborted, with no
record and no line read, and what is held is released (R181, R183); else IDX becomes 0 and the run has no record
(70_reset_and_hazards.md R210). -/
def startRun (s : State) : Host.Outcome State Fault Refusal :=
  if s.source.handle = .held ∧ s.sink.handle = .held then
    .next { s with phase := .running, idx := 0, sink := ⟨s.sink.handle, s.sink.failing, []⟩, ports := none }
  else
    .next
      { s with
        phase := .aborted
        source := ⟨s.source.handle.release, s.source.unread⟩
        sink := ⟨s.sink.handle.release, s.sink.failing, []⟩
        ports := none }

/-- RUN returns at EOF: the streams are released, IDX and the records stay (45_batch_translator.md R173, R183). -/
def finishRun (s : State) : Host.Outcome State Fault Refusal :=
  .next { s.releaseStreams with phase := .finished, ports := none }

/-- The input stream with a line read: the unread bytes are those after the line's ending (20_memory.md R44). -/
def State.consumeTo (after : Bytes) (s : State) : State :=
  { s with source := ⟨s.source.handle, after⟩ }

/-- The state after a line's record is emitted: the record is appended, IDX advances by 1 (45_batch_translator.md
R180), the ports show the transaction. -/
def State.afterRecord (r : Record) (ports : Ports) (s : State) : State :=
  { s with
    idx := s.idx + 1
    sink := ⟨s.sink.handle, s.sink.failing, s.sink.records ++ [r]⟩
    ports := some ports }

/-- `EmitRecord(r)` and `IDX <- IDX + 1` (45_batch_translator.md R173). A failing output stream ends the run with no
final state (R185). -/
def emitRecord (r : Record) (ports : Ports) (s : State) : Host.Outcome State Fault Refusal :=
  if s.sink.failing then .fault .outputFailure else .next (s.afterRecord r ports)

/-- A transaction ends with a word: STATUS 0, WORD the word, and the success record (10_state.md R24,
45_batch_translator.md R175). -/
def complete (w : Word) (toks : List Token) (line : Bytes) (s : State) : Host.Outcome State Fault Refusal :=
  emitRecord ⟨s.idx, .ok w, line⟩ ⟨toks, 0, some w⟩ s

/-- Taking an error (60_exceptions.md R194): STATUS carries the error's code, WORD no value, and the driver emits the
failure record for the line's index. Nothing is saved and no mode changes. The return (R195) is to go on at the next
line with IDX + 1, which `emitRecord` does: there is no return instruction and nothing to restore. -/
def takeError (e : EncodeError) (toks : List Token) (line : Bytes) (s : State) : Host.Outcome State Fault Refusal :=
  emitRecord ⟨s.idx, .err e (message s.params e line), line⟩ ⟨toks, e.status, none⟩ s

/-- The transaction of an instruction: assemble its word and complete, or take the error
(44_instruction_assembler.md R150; 45_batch_translator.md R173, R182). -/
def translate (op : Op) (src : SourceLine) (s : State) : Host.Outcome State Fault Refusal :=
  match assemble s.params op src.mnemonic.tok src.operandTokens with
  | .ok w => complete w src.tokens src.text s
  | .error e => takeError e src.tokens src.text s

/-- Whether an index fits IDX_BITS (45_batch_translator.md R186). -/
def indexFits (p : Params) (idx : Nat) : Bool :=
  match p.idxBits with
  | none => true
  | some n => decide (idx < 2 ^ n)

/-- Whether a line fits MAX_LINE_BYTES (45_batch_translator.md R186). -/
def lineFits (p : Params) (line : Bytes) : Bool :=
  match p.maxLineBytes with
  | none => true
  | some n => decide (line.length ≤ n)

/-- One turn of RUN's loop on a line that has been read: a line or an index beyond a realization's bound is refused
(45_batch_translator.md R186); a line that is no instruction takes UnknownOperation (44_instruction_assembler.md R151,
R152); else the instruction runs. `exec` is the instructions' meaning. -/
def translateLine (exec : Instr → State → Host.Outcome State Fault Refusal) (line : Bytes) (s : State) :
    Host.Outcome State Fault Refusal :=
  if !lineFits s.params line then .refused .lineTooLong
  else if !indexFits s.params s.idx then .refused .indexTooWide
  else
    match decode s.params line with
    | .ok i => exec i s
    | .error _ => takeError .unknownOperation (tokens s.params line) line s

/-- One turn of RUN's loop (45_batch_translator.md R173): read a line, or return at EOF. -/
def loopTurn (exec : Instr → State → Host.Outcome State Fault Refusal) (s : State) :
    Host.Outcome State Fault Refusal :=
  match readLine s.source.unread with
  | none => finishRun s
  | some (line, after) => translateLine exec line (s.consumeTo after)

/-- One step, by where the run stands (45_batch_translator.md R173, R181). -/
def stepWith (exec : Instr → State → Host.Outcome State Fault Refusal) (s : State) :
    Host.Outcome State Fault Refusal :=
  match s.phase with
  | .start => startRun s
  | .running => loopTurn exec s
  | .finished => .fault .runOver
  | .aborted => .fault .runAborted

/-- The state with a line, ended by CR LF, in front of the unread input of a running run, so that the next step
translates it (log 18). -/
def State.presentLine (line : Bytes) (s : State) : State :=
  { s with
    phase := .running
    source := ⟨.held, line ++ cr :: lf :: s.source.unread⟩
    sink := ⟨.held, s.sink.failing, s.sink.records⟩ }

end Sys2Proof.Machine
end

