-- ==== Sys2Proof/Machine/Arith.lean ====
section
/-! DEFINITION. The operations ADD, MUL, MAC, MAD and SACC.
Each instruction's effect on this hardware is its encode transaction: the word or the error of its line, the record, and
IDX + 1 (44_instruction_assembler.md R150; 45_batch_translator.md R173). What the encoded operation does in the
downstream execution unit is out of scope (00_scope.md R6). -/

namespace Sys2Proof.Machine

/-- ADD, code 1000 (41_opcode_table.md R97). -/
def execAdd (src : SourceLine) (s : State) : Host.Outcome State Fault Refusal := translate .add src s

/-- MUL, code 1001 (41_opcode_table.md R98). -/
def execMul (src : SourceLine) (s : State) : Host.Outcome State Fault Refusal := translate .mul src s

/-- MAC, code 1010 (41_opcode_table.md R99). -/
def execMac (src : SourceLine) (s : State) : Host.Outcome State Fault Refusal := translate .mac src s

/-- MAD, code 1011 (41_opcode_table.md R100). -/
def execMad (src : SourceLine) (s : State) : Host.Outcome State Fault Refusal := translate .mad src s

/-- SACC, code 1100 (41_opcode_table.md R101). -/
def execSacc (src : SourceLine) (s : State) : Host.Outcome State Fault Refusal := translate .sacc src s

end Sys2Proof.Machine
end

