-- ==== Sys2Proof/Machine/Control.lean ====
section
/-! DEFINITION. The operations NOP, JUMP and EXIT.
Each instruction's effect on this hardware is its encode transaction: the word or the error of its line, the record, and
IDX + 1 (44_instruction_assembler.md R150; 45_batch_translator.md R173). What the encoded operation does in the
downstream execution unit is out of scope (00_scope.md R6). -/

namespace Sys2Proof.Machine

/-- NOP, code 0000 (41_opcode_table.md R92). -/
def execNop (src : SourceLine) (s : State) : Host.Outcome State Fault Refusal := translate .nop src s

/-- JUMP, code 0001 (41_opcode_table.md R93). -/
def execJump (src : SourceLine) (s : State) : Host.Outcome State Fault Refusal := translate .jump src s

/-- EXIT, code 0010 (41_opcode_table.md R94). -/
def execExit (src : SourceLine) (s : State) : Host.Outcome State Fault Refusal := translate .exit src s

end Sys2Proof.Machine
end

