-- ==== Sys2Proof/Machine/Move.lean ====
section
/-! DEFINITION. The operations MOV and FILL.
Each instruction's effect on this hardware is its encode transaction: the word or the error of its line, the record, and
IDX + 1 (44_instruction_assembler.md R150; 45_batch_translator.md R173). What the encoded operation does in the
downstream execution unit is out of scope (00_scope.md R6). -/

namespace Sys2Proof.Machine

/-- MOV, code 0100 (41_opcode_table.md R95). -/
def execMov (src : SourceLine) (s : State) : Host.Outcome State Fault Refusal := translate .mov src s

/-- FILL, code 0101 (41_opcode_table.md R96). -/
def execFill (src : SourceLine) (s : State) : Host.Outcome State Fault Refusal := translate .fill src s

end Sys2Proof.Machine
end

