-- ==== Sys2Proof/Machine/Dispatch.lean ====
section
/-! DEFINITION. The instructions' meanings, one arm per constructor. -/

namespace Sys2Proof.Machine

/-- The meaning of an instruction. -/
def exec (i : Instr) (s : State) : Host.Outcome State Fault Refusal :=
  match i with
  | .nop src => Sys2Proof.Machine.execNop src s
  | .jump src => Sys2Proof.Machine.execJump src s
  | .exit src => Sys2Proof.Machine.execExit src s
  | .mov src => Sys2Proof.Machine.execMov src s
  | .fill src => Sys2Proof.Machine.execFill src s
  | .add src => Sys2Proof.Machine.execAdd src s
  | .mul src => Sys2Proof.Machine.execMul src s
  | .mac src => Sys2Proof.Machine.execMac src s
  | .mad src => Sys2Proof.Machine.execMad src s
  | .sacc src => Sys2Proof.Machine.execSacc src s

end Sys2Proof.Machine
end

