-- ==== Sys2Proof/Machine/Step.lean ====
section
/-! DEFINITION. One step of the machine, and how a word of the opcode table is placed to be its next instruction. -/

namespace Sys2Proof.Machine

/-- One step: the head of RUN, or one turn of its loop (45_batch_translator.md R173; 00_scope.md R7). -/
def step (s : State) : Host.Outcome State Fault Refusal := stepWith exec s

/-- The state whose next step runs the instruction of a word of spec/opcode_table.json: its line stands in front of
the unread input of a running run (log 18). A word that carries no operation places nothing. -/
def State.withFetchWord (s : State) (_nbits w : Nat) : State :=
  match tableWordLine w with
  | none => s
  | some line => s.presentLine line

end Sys2Proof.Machine
end

