-- ==== Sys2Proof/Machine/Lanes.lean ====
section
/-! DEFINITION. The driver with parallel lanes (60_exceptions.md R201; 20_memory.md R48; 70_reset_and_hazards.md R216):
lines are handed to lanes in input order, lanes finish in any order, and a finished record is held back until every
record with a lower index has been emitted. The sequential machine (`step`) is the reference semantics; this machine is
stated to give the same output stream. -/

namespace Sys2Proof.Machine

/-- A line on a lane, with its index. -/
structure Job where
  idx : Nat
  line : Bytes
  deriving DecidableEq, Repr

/-- The lanes, the driver and the output stream during one run. -/
structure LaneMachine where
  params : Params
  unread : Bytes
  nextIdx : Nat
  /-- One job for each lane that is at work. -/
  busy : List Job
  /-- Finished records that are held back. -/
  held : List Record
  emitted : List Record
  deriving DecidableEq, Repr

/-- What happens next; a schedule is a list of these. -/
inductive LaneEvent where
  /-- The next line goes to an idle lane. -/
  | take
  /-- The `k`-th lane at work finishes its line. -/
  | finish (k : Nat)
  /-- The held record with the next index is emitted. -/
  | emit
  deriving DecidableEq, Repr

/-- The start of a run over an input, with every lane idle. -/
def LaneMachine.init (p : Params) (input : Bytes) : LaneMachine := ⟨p, input, 0, [], [], []⟩

/-- One event with `lanes` encoder instances; an event that cannot happen changes nothing. -/
def LaneMachine.apply (lanes : Nat) (m : LaneMachine) : LaneEvent → LaneMachine
  | .take =>
    if m.busy.length < lanes then
      match readLine m.unread with
      | none => m
      | some (line, after) =>
        { m with unread := after, nextIdx := m.nextIdx + 1, busy := m.busy ++ [⟨m.nextIdx, line⟩] }
    else m
  | .finish k =>
    match m.busy[k]? with
    | none => m
    | some j => { m with busy := m.busy.eraseIdx k, held := m.held ++ [lineRecord m.params j.idx j.line] }
  | .emit =>
    match m.held.find? fun r => r.idx == m.emitted.length with
    | none => m
    | some r => { m with held := m.held.erase r, emitted := m.emitted ++ [r] }

/-- A run of a schedule. -/
def LaneMachine.runSchedule (lanes : Nat) (m : LaneMachine) (schedule : List LaneEvent) : LaneMachine :=
  schedule.foldl (LaneMachine.apply lanes) m

/-- No line is unread, no lane is at work, no record is held back. -/
def LaneMachine.drained (m : LaneMachine) : Bool := m.unread.isEmpty && m.busy.isEmpty && m.held.isEmpty

/-- The records of the sequential run over an input (20_memory.md R47, R48). -/
def sequentialRecords (p : Params) (input : Bytes) : List Record :=
  (streamLines input).mapIdx fun i line => lineRecord p i line

end Sys2Proof.Machine
end

