-- ==== Sys2Proof/Safety.lean ====
section
/-! DEFINITION. The terms the claims use: the machine's invariant, accepted operands, and bounded indices. -/

namespace Sys2Proof.Machine

/-- The records of a run are right: the k-th has index k and is the record of its own line (20_memory.md R47,
44_instruction_assembler.md R159). -/
def RecordsRight (p : Params) (rs : List Record) : Prop :=
  ∀ k r, rs[k]? = some r → r = lineRecord p k r.line

/-- The machine's invariant. While a run goes on both streams are held, IDX is the number of records, and the records
are right; once it has returned the same holds with no stream held; after RunAborted there is no record and no stream
held. Before a run there is no record of it (10_state.md R33). -/
def MachineInv (s : State) : Prop :=
  match s.phase with
  | .start => s.sink.records = []
  | .running =>
    s.source.handle = .held ∧ s.sink.handle = .held ∧ s.idx = s.sink.records.length
      ∧ RecordsRight s.params s.sink.records
  | .finished =>
    s.source.handle ≠ .held ∧ s.sink.handle ≠ .held ∧ s.idx = s.sink.records.length
      ∧ RecordsRight s.params s.sink.records
  | .aborted => s.source.handle ≠ .held ∧ s.sink.handle ≠ .held ∧ s.sink.records = []

/-- The index part of an operand's contribution, `v << s`, or 0 without an index (44_instruction_assembler.md §3). -/
def indexPart (p : Params) (t : Token) (loc : Fin 3) : Nat :=
  if hasIndex p t then indexValue p t <<< (indexShift t loc).getD 0 else 0

/-- What an accepted operand contributes, as a number: bank code and index part (30_encoding.md R64). -/
def operandBits (p : Params) (t : Token) (loc : Fin 3) : Nat := bankField t loc ||| indexPart p t loc

/-- Every encoded operand of a token list has its index part below a bound; the bound 2^19 is the spec's "small
indices" (44_instruction_assembler.md §3). -/
def IndicesBelow (p : Params) (ops : List Token) (bound : Nat) : Prop :=
  ∀ x ∈ placeOperands ops, indexPart p x.1 x.2 < bound

/-- The largest magnitude plus one that an operand may have at a position (30_encoding.md R65). -/
def magnitudeLimit (t : Token) (loc : Fin 3) : Nat :=
  match bankOf t, loc with
  | some _, 0 => 2 ^ 24
  | some _, 1 => 2 ^ 28
  | some _, 2 => 2 ^ 32
  | none, 0 => 2 ^ 21
  | none, 1 => 2 ^ 32
  | none, 2 => 0

/-- When an operand is accepted: it names a bank or is not at loc 2 (43_operand_encoder.md R124); with a digit, its
magnitude is below the limit (R131); without one, it names a bank or the policy is to ignore it (R130). -/
def OperandAccepted (p : Params) (t : Token) (loc : Fin 3) : Prop :=
  (bankOf t ≠ none ∨ loc ≠ 2)
    ∧ (hasIndex p t = true → magnitude p t < magnitudeLimit t loc)
    ∧ (hasIndex p t = false → bankOf t ≠ none ∨ p.emptyOperand = .ignore)

/-- All encoded operands of a line are accepted. -/
def OperandsAccepted (p : Params) (ops : List Token) : Prop :=
  ∀ x ∈ placeOperands ops, OperandAccepted p x.1 x.2

/-- The word the rules give a line whose operands are accepted: the OR of the opcode, the flag, and each encoded
operand's bank code and index part (30_encoding.md R64). -/
def ruledWord (p : Params) (code : Nat) (m : Token) (ops : List Token) : Nat :=
  (placeOperands ops).foldl (fun w x => w ||| operandBits p x.1 x.2)
    ((code <<< 28) ||| ((if flagDec m then 1 else 0) <<< 15))

end Sys2Proof.Machine
end

