-- ==== Sys2Proof/Certificates/Slice0/Obligations.lean ====
section
/-! DEFINITION. The statements for the provers. A rule is cited as in spec/. "The spec's inference" and "the spec's
decision D<n>" mark rules the spec itself marks `[derived: ...]` or `[decision: ...]`; "log n" marks what a log entry of
notes/assumptions, and not a rule, gives. -/

open Sys2Proof Sys2Proof.Machine

/-! ## The run -/

/-- From 70_reset_and_hazards.md R210 (the spec's decision D16: reset is the start of a run): the state at reset and every run's start have IDX 0 and no record, and the first line
of the stream is the one that gets index 0. (That reset stands before RUN's first line is log 14.) -/
def Obligations.StartOfRunZeroesIndexAndRecords : Prop :=
  State.reset.idx = 0 ∧ State.reset.sink.records = [] ∧ State.reset.phase = .start ∧
  ∀ s : State, s.phase = .start → s.source.handle = .held → s.sink.handle = .held →
    ∃ t, step s = .next t ∧ t.phase = .running ∧ t.idx = 0 ∧ t.sink.records = [] ∧ t.source = s.source ∧
      ∀ line after u, readLine s.source.unread = some (line, after) → step t = .next u →
        ∃ r, u.sink.records = [r] ∧ r.idx = 0 ∧ r.line = line

/-- From 45_batch_translator.md R181 (the spec's decision D19): with a stream that could not be opened the run aborts before any line is processed,
emits no record, and its outcome is RunAborted. (That the outcome shows as a fault of the following step is log 15.) -/
def Obligations.RunAbortsBeforeAnyLine : Prop :=
  ∀ s : State, s.phase = .start → ¬ (s.source.handle = .held ∧ s.sink.handle = .held) →
    ∃ t, step s = .next t ∧ t.phase = .aborted ∧ t.sink.records = [] ∧ t.source.unread = s.source.unread ∧
      t.idx = s.idx ∧ t.ports = none ∧ step t = .fault .runAborted

/-- From 45_batch_translator.md R183: a step that ends a run, by EOF or RunAborted, leaves no stream held; any other
step of a run keeps both handles. -/
def Obligations.StreamsReleasedOnEveryExit : Prop :=
  ∀ s t : State, step s = .next t →
    (t.phase = .finished ∨ t.phase = .aborted → t.source.handle ≠ .held ∧ t.sink.handle ≠ .held) ∧
    (t.phase = .running → t.source.handle = s.source.handle ∧ t.sink.handle = s.sink.handle) ∧
    t.phase ≠ .start

/-- From 45_batch_translator.md R173: when the next line of a running run decodes to an instruction, the step is the
instruction's meaning on the state whose unread input starts after that line's ending. -/
def Obligations.StepRunsTheDecodedInstruction : Prop :=
  ∀ (s : State) (line after : Bytes) (i : Instr), s.phase = .running →
    readLine s.source.unread = some (line, after) → lineFits s.params line = true →
    indexFits s.params s.idx = true → decode s.params line = .ok i →
    step s = exec i { s with source := ⟨s.source.handle, after⟩ }

/-- From 45_batch_translator.md R173: one turn of RUN's loop emits the record of `ASM(tokens(line))` at IDX, whichever
operation the line has and whether it has one, and at EOF the run returns with IDX and the records as they are. -/
def Obligations.LoopTurnEmitsTheLinesRecord : Prop :=
  (∀ (s : State) (line after : Bytes), s.phase = .running → readLine s.source.unread = some (line, after) →
    lineFits s.params line = true → indexFits s.params s.idx = true → s.sink.failing = false →
    step s = .next
      { s with
        idx := s.idx + 1
        source := ⟨s.source.handle, after⟩
        sink := ⟨s.sink.handle, s.sink.failing, s.sink.records ++
          [⟨s.idx, recordResult s.params line (asm s.params (tokens s.params line)), line⟩]⟩
        ports := some (portsOf (tokens s.params line) (asm s.params (tokens s.params line))) }) ∧
  (∀ s : State, s.phase = .running → s.source.unread = [] →
    ∃ t, step s = .next t ∧ t.phase = .finished ∧ t.idx = s.idx ∧ t.sink.records = s.sink.records)

/-- From 44_instruction_assembler.md R152: a mnemonic that no table entry matches fails with UnknownOperation and no
word. From 60_exceptions.md R191 (the spec's decision D8; log 12), R194, R195 and 45_batch_translator.md R176: the step
takes the error, with STATUS 1, the failure record and IDX + 1, and goes on. -/
def Obligations.UnknownMnemonicTakesUnknownOperation : Prop :=
  (∀ (p : Params) (m : Token) (ops : List Token), (∀ x ∈ opcTable, contains m x.1 = false) →
    asm p (m :: ops) = .error .unknownOperation) ∧
  ∀ (s : State) (line after : Bytes) (m : Token) (ops : List Token), s.phase = .running →
    readLine s.source.unread = some (line, after) → lineFits s.params line = true →
    indexFits s.params s.idx = true → s.sink.failing = false → tokens s.params line = m :: ops →
    (∀ x ∈ opcTable, contains m x.1 = false) →
    ∃ t, step s = .next t ∧ t.idx = s.idx + 1 ∧ t.ports = some ⟨m :: ops, 1, none⟩ ∧
      t.sink.records = s.sink.records ++ [⟨s.idx, .err .unknownOperation (message s.params .unknownOperation line), line⟩]

/-- 45_batch_translator.md R174: a line with no token is passed to ASM as the empty list, yields UnknownOperation, takes
its index and emits its error record. -/
def Obligations.BlankLineTakesItsIndex : Prop :=
  ∀ (s : State) (line after : Bytes), s.phase = .running → readLine s.source.unread = some (line, after) →
    lineFits s.params line = true → indexFits s.params s.idx = true → s.sink.failing = false →
    (∀ b ∈ line, b ∈ s.params.wsSet) →
    tokens s.params line = [] ∧ asm s.params [] = .error .unknownOperation ∧
    ∃ t, step s = .next t ∧ t.idx = s.idx + 1 ∧ t.source.unread = after ∧
      t.sink.records = s.sink.records ++ [⟨s.idx, .err .unknownOperation (message s.params .unknownOperation line), line⟩]

/-- From 45_batch_translator.md R180: for an input of N lines the run emits exactly N records, with indices 0 to N-1 in
order, and ends with IDX = N, however many lines fail. That the records are the lines' own is from R173 and
44_instruction_assembler.md R159; that the run takes N + 2 steps is the model's choice (log 14, log 16). -/
def Obligations.RunEmitsOneRecordPerLine : Prop :=
  ∀ s : State, s.phase = .start → s.source.handle = .held → s.sink.handle = .held → s.sink.failing = false →
    s.params.idxBits = none → s.params.maxLineBytes = none →
    ∃ t, core.run ((streamLines s.source.unread).length + 2) s = .next t ∧ t.phase = .finished ∧
      t.idx = (streamLines s.source.unread).length ∧
      t.sink.records = sequentialRecords s.params s.source.unread ∧
      t.sink.records.map Record.idx = List.range (streamLines s.source.unread).length

/-- The invariant holds at reset. -/
def Obligations.InvariantHoldsAtReset : Prop := MachineInv State.reset

/-- Every step keeps the invariant: while a run goes on both streams are held, IDX is the number of records, the k-th
record has index k and is the record of its own line (20_memory.md R47,
45_batch_translator.md R180, 44_instruction_assembler.md R159); after it no stream is held. -/
def Obligations.StepKeepsTheInvariant : Prop :=
  ∀ s t : State, MachineInv s → step s = .next t → MachineInv t

/-- From 10_state.md R23 (IDX unbounded: the spec's decision D13): IDX is 0 at the start of a run and advances by exactly 1 per line, whether the line succeeded or
failed; nothing else changes it. No step writes the parameters (R28). -/
def Obligations.IndexAdvancesByOnePerLine : Prop :=
  ∀ s t : State, step s = .next t → t.params = s.params ∧
    (t.phase = .running → s.phase = .start → t.idx = 0 ∧ t.sink.records = []) ∧
    (s.phase = .running → ∀ line after, readLine s.source.unread = some (line, after) →
      t.idx = s.idx + 1 ∧ t.phase = .running ∧ t.source.unread = after ∧
      ∃ r, t.sink.records = s.sink.records ++ [r] ∧ r.idx = s.idx ∧ r.line = line) ∧
    (s.phase = .running → readLine s.source.unread = none →
      t.idx = s.idx ∧ t.sink.records = s.sink.records)

/-- From 45_batch_translator.md R185 (the spec's decision D19; log 17): a write that fails during the run ends it with
no final state. -/
def Obligations.OutputFailureEndsTheRun : Prop :=
  (∀ (i : Instr) (s : State), s.sink.failing = true → exec i s = .fault .outputFailure) ∧
  ∀ (s : State) (line after : Bytes), s.phase = .running → readLine s.source.unread = some (line, after) →
    lineFits s.params line = true → indexFits s.params s.idx = true → s.sink.failing = true →
    step s = .fault .outputFailure

/-- From 45_batch_translator.md R186 (the spec's decisions D13, D20; log 7): a realization with a finite line buffer or counter refuses the lines beyond its bound,
and a model without bounds refuses nothing. -/
def Obligations.BoundedRealizationRefuses : Prop :=
  (∀ (s : State) (line after : Bytes) (n : Nat), s.phase = .running →
    readLine s.source.unread = some (line, after) → s.params.maxLineBytes = some n → n < line.length →
    step s = .refused .lineTooLong) ∧
  (∀ (s : State) (line after : Bytes) (n : Nat), s.phase = .running →
    readLine s.source.unread = some (line, after) → lineFits s.params line = true → s.params.idxBits = some n →
    2 ^ n ≤ s.idx → step s = .refused .indexTooWide) ∧
  (∀ (s : State) (r : Refusal), s.params.idxBits = none → s.params.maxLineBytes = none → step s ≠ .refused r)

/-- From 44_instruction_assembler.md R159 and 70_reset_and_hazards.md R211: the result of a line does not depend on
what came before it. Two steps on the same line, at any two states of the same parameters, present the same ports and
emit records that differ in the index only. That a failure's message depends on the error and the line only, so that the
messages agree too, is the model's choice (log 6). -/
def Obligations.SameLineSameResult : Prop :=
  ∀ (s₁ s₂ t₁ t₂ : State) (line a₁ a₂ : Bytes), s₁.params = s₂.params → s₁.phase = .running → s₂.phase = .running →
    readLine s₁.source.unread = some (line, a₁) → readLine s₂.source.unread = some (line, a₂) →
    step s₁ = .next t₁ → step s₂ = .next t₂ →
    t₁.ports = t₂.ports ∧
    ∃ r₁ r₂, t₁.sink.records = s₁.sink.records ++ [r₁] ∧ t₂.sink.records = s₂.sink.records ++ [r₂] ∧
      r₁.result = r₂.result ∧ r₁.line = line ∧ r₂.line = line ∧ r₁.idx = s₁.idx ∧ r₂.idx = s₂.idx

/-! ## The instructions -/

/-- NOP, JUMP and EXIT complete: with a sound output stream and accepted operands each answers the next state with IDX
advanced by 1, the success record of its word appended and the ports showing it, and everything else unchanged
(41_opcode_table.md R92 to R94, 44_instruction_assembler.md R150, 45_batch_translator.md R173). -/
def Obligations.ControlInstructionsComplete : Prop :=
  ∀ (src : SourceLine) (s : State), s.sink.failing = false → OperandsAccepted s.params src.operandTokens →
    exec (.nop src) s = .next
      { s with
        idx := s.idx + 1
        sink := ⟨s.sink.handle, s.sink.failing, s.sink.records ++ [⟨s.idx, .ok (BitVec.ofNat 34
          (ruledWord s.params 0b0000 src.mnemonic.tok src.operandTokens)), src.text⟩]⟩
        ports := some ⟨src.tokens, 0, some (BitVec.ofNat 34
          (ruledWord s.params 0b0000 src.mnemonic.tok src.operandTokens))⟩ } ∧
    exec (.jump src) s = .next
      { s with
        idx := s.idx + 1
        sink := ⟨s.sink.handle, s.sink.failing, s.sink.records ++ [⟨s.idx, .ok (BitVec.ofNat 34
          (ruledWord s.params 0b0001 src.mnemonic.tok src.operandTokens)), src.text⟩]⟩
        ports := some ⟨src.tokens, 0, some (BitVec.ofNat 34
          (ruledWord s.params 0b0001 src.mnemonic.tok src.operandTokens))⟩ } ∧
    exec (.exit src) s = .next
      { s with
        idx := s.idx + 1
        sink := ⟨s.sink.handle, s.sink.failing, s.sink.records ++ [⟨s.idx, .ok (BitVec.ofNat 34
          (ruledWord s.params 0b0010 src.mnemonic.tok src.operandTokens)), src.text⟩]⟩
        ports := some ⟨src.tokens, 0, some (BitVec.ofNat 34
          (ruledWord s.params 0b0010 src.mnemonic.tok src.operandTokens))⟩ }

/-- MOV and FILL complete, as above (41_opcode_table.md R95, R96). -/
def Obligations.MoveInstructionsComplete : Prop :=
  ∀ (src : SourceLine) (s : State), s.sink.failing = false → OperandsAccepted s.params src.operandTokens →
    exec (.mov src) s = .next
      { s with
        idx := s.idx + 1
        sink := ⟨s.sink.handle, s.sink.failing, s.sink.records ++ [⟨s.idx, .ok (BitVec.ofNat 34
          (ruledWord s.params 0b0100 src.mnemonic.tok src.operandTokens)), src.text⟩]⟩
        ports := some ⟨src.tokens, 0, some (BitVec.ofNat 34
          (ruledWord s.params 0b0100 src.mnemonic.tok src.operandTokens))⟩ } ∧
    exec (.fill src) s = .next
      { s with
        idx := s.idx + 1
        sink := ⟨s.sink.handle, s.sink.failing, s.sink.records ++ [⟨s.idx, .ok (BitVec.ofNat 34
          (ruledWord s.params 0b0101 src.mnemonic.tok src.operandTokens)), src.text⟩]⟩
        ports := some ⟨src.tokens, 0, some (BitVec.ofNat 34
          (ruledWord s.params 0b0101 src.mnemonic.tok src.operandTokens))⟩ }

/-- ADD, MUL, MAC, MAD and SACC complete, as above (41_opcode_table.md R97 to R101). -/
def Obligations.ArithmeticInstructionsComplete : Prop :=
  ∀ (src : SourceLine) (s : State), s.sink.failing = false → OperandsAccepted s.params src.operandTokens →
    exec (.add src) s = .next
      { s with
        idx := s.idx + 1
        sink := ⟨s.sink.handle, s.sink.failing, s.sink.records ++ [⟨s.idx, .ok (BitVec.ofNat 34
          (ruledWord s.params 0b1000 src.mnemonic.tok src.operandTokens)), src.text⟩]⟩
        ports := some ⟨src.tokens, 0, some (BitVec.ofNat 34
          (ruledWord s.params 0b1000 src.mnemonic.tok src.operandTokens))⟩ } ∧
    exec (.mul src) s = .next
      { s with
        idx := s.idx + 1
        sink := ⟨s.sink.handle, s.sink.failing, s.sink.records ++ [⟨s.idx, .ok (BitVec.ofNat 34
          (ruledWord s.params 0b1001 src.mnemonic.tok src.operandTokens)), src.text⟩]⟩
        ports := some ⟨src.tokens, 0, some (BitVec.ofNat 34
          (ruledWord s.params 0b1001 src.mnemonic.tok src.operandTokens))⟩ } ∧
    exec (.mac src) s = .next
      { s with
        idx := s.idx + 1
        sink := ⟨s.sink.handle, s.sink.failing, s.sink.records ++ [⟨s.idx, .ok (BitVec.ofNat 34
          (ruledWord s.params 0b1010 src.mnemonic.tok src.operandTokens)), src.text⟩]⟩
        ports := some ⟨src.tokens, 0, some (BitVec.ofNat 34
          (ruledWord s.params 0b1010 src.mnemonic.tok src.operandTokens))⟩ } ∧
    exec (.mad src) s = .next
      { s with
        idx := s.idx + 1
        sink := ⟨s.sink.handle, s.sink.failing, s.sink.records ++ [⟨s.idx, .ok (BitVec.ofNat 34
          (ruledWord s.params 0b1011 src.mnemonic.tok src.operandTokens)), src.text⟩]⟩
        ports := some ⟨src.tokens, 0, some (BitVec.ofNat 34
          (ruledWord s.params 0b1011 src.mnemonic.tok src.operandTokens))⟩ } ∧
    exec (.sacc src) s = .next
      { s with
        idx := s.idx + 1
        sink := ⟨s.sink.handle, s.sink.failing, s.sink.records ++ [⟨s.idx, .ok (BitVec.ofNat 34
          (ruledWord s.params 0b1100 src.mnemonic.tok src.operandTokens)), src.text⟩]⟩
        ports := some ⟨src.tokens, 0, some (BitVec.ofNat 34
          (ruledWord s.params 0b1100 src.mnemonic.tok src.operandTokens))⟩ }

/-- From 60_exceptions.md R194, R195: an instruction with an operand that is not accepted takes InvalidOperandPosition:
STATUS carries its code (2, the spec's choice D8), WORD no value, the failure record stands at the line's index, IDX
advances, and nothing else changes. -/
def Obligations.FailingOperandTakesTheError : Prop :=
  ∀ (i : Instr) (s : State), s.sink.failing = false → ¬ OperandsAccepted s.params i.src.operandTokens →
    exec i s = .next
      { s with
        idx := s.idx + 1
        sink := ⟨s.sink.handle, s.sink.failing, s.sink.records ++ [⟨s.idx, .err .invalidOperandPosition
          (message s.params .invalidOperandPosition i.src.text), i.src.text⟩]⟩
        ports := some ⟨i.src.tokens, 2, none⟩ }

/-- The frame of every instruction: when it answers a next state, only IDX, the records and the ports have changed; IDX
by 1, the records by one appended record at the old IDX that copies the line, and record and ports agree. -/
def Obligations.InstructionFrame : Prop :=
  ∀ (i : Instr) (s t : State), exec i s = .next t →
    t.params = s.params ∧ t.phase = s.phase ∧ t.source = s.source ∧ t.sink.handle = s.sink.handle ∧
    t.sink.failing = s.sink.failing ∧ t.idx = s.idx + 1 ∧
    ∃ r q, t.sink.records = s.sink.records ++ [r] ∧ t.ports = some q ∧ r.idx = s.idx ∧ r.line = encode i ∧
      q.toks = i.src.tokens ∧
      ((q.status = 0 ∧ ∃ w, q.word = some w ∧ r.result = .ok w) ∨
        (q.status = 2 ∧ q.word = none ∧ ∃ msg, r.result = .err .invalidOperandPosition msg))

/-! ## Lines, tokens, decoding -/

/-- From 00_scope.md R12 and 45_batch_translator.md R172: a line is its tokens with separators between them: no byte is
lost, tokens are non-empty and free of WS_SET bytes, and what stands between, before and after them is WS_SET bytes
only, at least one between two tokens. -/
def Obligations.TokensAreTheMaximalRuns : Prop :=
  ∀ (p : Params) (line : Bytes), ∃ (xs : List Lexeme) (trail : Bytes),
    line = xs.flatMap (fun x => x.sep ++ x.tok) ++ trail ∧ tokens p line = xs.map Lexeme.tok ∧
    (∀ x ∈ xs, x.tok ≠ [] ∧ (∀ b ∈ x.tok, b ∉ p.wsSet) ∧ ∀ b ∈ x.sep, b ∈ p.wsSet) ∧
    (∀ x ∈ xs.tail, x.sep ≠ []) ∧ ∀ b ∈ trail, b ∈ p.wsSet

/-- Decode and encode agree: the line of a well-formed instruction, of any of the ten operations, decodes to it, with
every byte of its mnemonic, its operands and its separators. -/
def Obligations.DecodeEncodeRoundTrip : Prop :=
  ∀ (p : Params) (i : Instr), i.wf p = true → decode p (encode i) = .ok i

/-- From 45_batch_translator.md R184: the other direction. A line that decodes is kept byte for byte in its
instruction, whose tokens are the line's and whose operation the mnemonic selects; without LF in it, it is
well-formed. -/
def Obligations.DecodedLineIsKeptVerbatim : Prop :=
  ∀ (p : Params) (line : Bytes) (i : Instr), decode p line = .ok i →
    encode i = line ∧ i.src.tokens = tokens p line ∧ opcLookup i.src.mnemonic.tok = some i.op ∧
    (lf ∉ line → i.wf p = true)

/-- From 45_batch_translator.md R171 (the spec's decision D11): LF ends a line; a CR directly before it belongs to the line ending; bytes after the
last LF form a final line; a final LF adds no line; an empty stream has no lines. -/
def Obligations.LineFraming : Prop :=
  readLine [] = none ∧ streamLines [] = [] ∧
  (∀ line rest : Bytes, lf ∉ line →
    readLine (line ++ cr :: lf :: rest) = some (line, rest) ∧
    (line.getLast? ≠ some cr → readLine (line ++ lf :: rest) = some (line, rest)) ∧
    (line ≠ [] → readLine line = some (line, []))) ∧
  (∀ stream line after : Bytes, readLine stream = some (line, after) →
    streamLines stream = line :: streamLines after) ∧
  streamLines (ascii "NOP\n\nEXIT") = [ascii "NOP", [], ascii "EXIT"]

/-! ## Records -/

/-- From 45_batch_translator.md R178 (the spec's decision D13): the index is written in decimal ASCII, with no sign, no leading zeros, no padding. -/
def Obligations.IndexTextIsPlainDecimal : Prop :=
  (∀ n : Nat, decimalText n ≠ [] ∧ (∀ b ∈ decimalText n, 0x30 ≤ b.toNat ∧ b.toNat ≤ 0x39) ∧
    decimal (digits defaultParams (decimalText n)) = n ∧ (n ≠ 0 → (decimalText n).head? ≠ some 0x30)) ∧
  decimalText 0 = ascii "0" ∧ decimalText 1 = ascii "1" ∧ decimalText 10 = ascii "10" ∧ decimalText 123 = ascii "123"

/-- From 45_batch_translator.md R175: the text of a success record, with the index text of R178 (the spec's decision D13)
and the terminator of R179 (the spec's decision D14; log 11). -/
def Obligations.SuccessRecordText : Prop :=
  (∀ (idx : Nat) (w : Word) (line : Bytes), ∃ B : Bytes,
    Record.render ⟨idx, .ok w, line⟩ =
      ascii "ukernel[" ++ decimalText idx ++ ascii "]=0b" ++ B ++ ascii ";  // " ++ line ++ [0x0A] ∧
    B.length = 34 ∧ ∀ i, i < 34 → B[i]? = some (if w.getLsbD (33 - i) then 0x31 else 0x30)) ∧
  Record.render (lineRecord defaultParams 0 (ascii "NOP")) =
    ascii "ukernel[0]=0b0000000000000000000000000000000000;  // NOP\n"

/-- From 45_batch_translator.md R176 and R177: the text of a failure record: the prefix with the index, then the
message, then the terminator. Nothing is said of the message's text. -/
def Obligations.FailureRecordText : Prop :=
  ∀ (idx : Nat) (e : EncodeError) (msg line : Bytes),
    Record.render ⟨idx, .err e msg, line⟩ =
      ascii "Error processing line " ++ decimalText idx ++ ascii ": " ++ msg ++ [0x0A]

/-- From 60_exceptions.md R191 (the numbers are the spec's decision D8): the status codes; WORD is valid exactly when STATUS is 0, 3 is never produced, and RunAborted
presents no transaction. -/
def Obligations.StatusCodes : Prop :=
  (∀ (p : Params) (toks : List Token),
    ((encoderPorts p toks).status = 0 ↔ ∃ w, asm p toks = .ok w) ∧
    ((encoderPorts p toks).status = 1 ↔ asm p toks = .error .unknownOperation) ∧
    ((encoderPorts p toks).status = 2 ↔ asm p toks = .error .invalidOperandPosition) ∧
    (encoderPorts p toks).status ≠ 3 ∧
    (∀ w, (encoderPorts p toks).word = some w ↔ asm p toks = .ok w)) ∧
  ∀ s t : State, s.phase = .start → step s = .next t → t.phase = .aborted → t.ports = none

/-! ## The Opcode Table and the Flag Decoder -/

/-- 30_encoding.md R68: the opcode map; the six other codes are reserved and never come from the table. -/
def Obligations.OpcodeMap : Prop :=
  (Op.nop.code = 0b0000 ∧ Op.jump.code = 0b0001 ∧ Op.exit.code = 0b0010 ∧ Op.mov.code = 0b0100 ∧
    Op.fill.code = 0b0101 ∧ Op.add.code = 0b1000 ∧ Op.mul.code = 0b1001 ∧ Op.mac.code = 0b1010 ∧
    Op.mad.code = 0b1011 ∧ Op.sacc.code = 0b1100) ∧
  ∀ m : Token, (opcLut m).2 ∉ ([0b0011, 0b0110, 0b0111, 0b1101, 0b1110, 0b1111] : List (BitVec 4))

/-- 41_opcode_table.md R90: the lookup is substring containment in the table's order, first match wins; a miss gives
hit 0 and code 0000; the contribution sets only bits 31:28. -/
def Obligations.OpcodeLookupIsFirstMatch : Prop :=
  (∀ (m : Token) (pre post : List (Bytes × Op)) (pat : Bytes) (op : Op), opcTable = pre ++ (pat, op) :: post →
    pat <:+: m → (∀ x ∈ pre, ¬ x.1 <:+: m) → opcLut m = (true, op.code)) ∧
  (∀ m : Token, (∀ x ∈ opcTable, ¬ x.1 <:+: m) → opcLut m = (false, 0b0000)) ∧
  ∀ (c : BitVec 4) (k : Nat), (opcodeContribution c).getLsbD k = (decide (28 ≤ k) && c.getLsbD (k - 28))

/-- From 41_opcode_table.md R92 to R101: when each operation is selected. -/
def Obligations.EachOperationWinsOverLaterEntries : Prop :=
  ∀ m : Token,
    (opcLookup m = some .nop ↔ contains m (ascii "NOP")) ∧
    (opcLookup m = some .jump ↔ contains m (ascii "JUMP") ∧ ¬ contains m (ascii "NOP")) ∧
    (opcLookup m = some .exit ↔ contains m (ascii "EXIT") ∧
      ∀ x ∈ [ascii "NOP", ascii "JUMP"], ¬ contains m x) ∧
    (opcLookup m = some .mov ↔ contains m (ascii "MOV") ∧
      ∀ x ∈ [ascii "NOP", ascii "JUMP", ascii "EXIT"], ¬ contains m x) ∧
    (opcLookup m = some .fill ↔ contains m (ascii "FILL") ∧
      ∀ x ∈ [ascii "NOP", ascii "JUMP", ascii "EXIT", ascii "MOV"], ¬ contains m x) ∧
    (opcLookup m = some .add ↔ contains m (ascii "ADD") ∧
      ∀ x ∈ [ascii "NOP", ascii "JUMP", ascii "EXIT", ascii "MOV", ascii "FILL"], ¬ contains m x) ∧
    (opcLookup m = some .mul ↔ contains m (ascii "MUL") ∧
      ∀ x ∈ [ascii "NOP", ascii "JUMP", ascii "EXIT", ascii "MOV", ascii "FILL", ascii "ADD"], ¬ contains m x) ∧
    (opcLookup m = some .mac ↔ contains m (ascii "MAC") ∧
      ∀ x ∈ [ascii "NOP", ascii "JUMP", ascii "EXIT", ascii "MOV", ascii "FILL", ascii "ADD", ascii "MUL"],
        ¬ contains m x) ∧
    (opcLookup m = some .mad ↔ contains m (ascii "MAD") ∧
      ∀ x ∈ [ascii "NOP", ascii "JUMP", ascii "EXIT", ascii "MOV", ascii "FILL", ascii "ADD", ascii "MUL",
        ascii "MAC"], ¬ contains m x) ∧
    (opcLookup m = some .sacc ↔ contains m (ascii "SACC") ∧
      ∀ x ∈ [ascii "NOP", ascii "JUMP", ascii "EXIT", ascii "MOV", ascii "FILL", ascii "ADD", ascii "MUL",
        ascii "MAC", ascii "MAD"], ¬ contains m x)

/-- 42_flag_decoder.md R110: the AAM bit is 1 exactly when the mnemonic contains `AAM` or `(A`, and its contribution is
word bit 15 alone. -/
def Obligations.FlagIsAamOrOpenParenA : Prop :=
  (∀ m : Token, flagDec m = true ↔ ascii "AAM" <:+: m ∨ ascii "(A" <:+: m) ∧
  (∀ (aam : Bool) (k : Nat), (flagContribution aam).getLsbD k = (decide (k = 15) && aam)) ∧
  flagDec (ascii "MAC(AAM)") = true ∧ flagContribution true = 0x000008000

/-- From 30_encoding.md R71 (the spec's inference): a word carries an operation when its bits 33:28 are 00 and the operation's code; the decode is
exact whenever no index reaches bits 31:28; otherwise the OPC field is the code ORed with index bits. -/
def Obligations.OpcodeFieldDecodes : Prop :=
  (∀ (w : Word) (op : Op), decodeOp w = some op ↔ w.extractLsb' 28 6 = op.code.setWidth 6) ∧
  (∀ (p : Params) (m : Token) (ops : List Token) (w : Word), asm p (m :: ops) = .ok w →
    (IndicesBelow p ops (2 ^ 28) → decodeOp w = opcLookup m) ∧
    ∀ op, opcLookup m = some op → ∀ k, k < 4 →
      w.getLsbD (28 + k) = (op.code.getLsbD k ||
        (placeOperands ops).any fun x => (indexPart p x.1 x.2).testBit (28 + k)))

/-- The model's choice (log 18), from 30_encoding.md R71: every word that carries an operation is the encoding of the
line that stands for it, the decoder reads an instruction with that operation from it, and the machine, given the word
as its next instruction, emits the record of exactly this word. -/
def Obligations.EveryOperationWordHasALine : Prop :=
  ∀ (w : Word) (op : Op), decodeOp w = some op →
    ∃ line i, wordLine w = some line ∧ decode defaultParams line = .ok i ∧ i.op = op ∧
      asm defaultParams (tokens defaultParams line) = .ok w ∧
      (∀ nbits, decodeTableWord nbits w.toNat = some i) ∧
      ∀ (s : State) (nbits : Nat), s.params = defaultParams → s.sink.failing = false →
        ∃ t, step (s.withFetchWord nbits w.toNat) = .next t ∧
          t.sink.records = s.sink.records ++ [⟨s.idx, .ok w, line⟩]

/-- A few lines and words of 95_test_vectors.md, written out: the lines decode to the operation they stand for and
assemble to the word, and the words' rows of the opcode table decode. -/
def Obligations.WrittenOutWordsDecode : Prop :=
  (decode defaultParams (ascii "MOV GRF_A1 BANK-2")).toOption =
    some (.mov ⟨⟨[], ascii "MOV"⟩, [⟨ascii " ", ascii "GRF_A1"⟩, ⟨ascii " ", ascii "BANK-2"⟩], []⟩) ∧
  asm defaultParams [ascii "MOV", ascii "GRF_A1", ascii "BANK-2"] = .ok 0b0001000010000000000000100110100000 ∧
  asm defaultParams [ascii "JUMP", ascii "7", ascii "3"] = .ok 0b0000010000000000000111100000001011 ∧
  asm defaultParams [ascii "MAC(AAM)", ascii "GRF_B[A1]", ascii "GRF_A[A2]", ascii "SRF_A[A3]"] =
    .ok 0b0010100100010110001000000100100011 ∧
  decodeOp 0b0001000000000000000000000000000000 = some .mov ∧
  decodeOp 0b0011000000000000000000000000000000 = some .sacc ∧
  decodeOp 0b0000110000000000000000000000000000 = none

/-! ## The Operand Encoder -/

/-- 30_encoding.md R62: the two shift schedules; position 2 without a bank is rejected. -/
def Obligations.ShiftSchedules : Prop :=
  (∀ loc : Fin 3, bankShift loc = 25 - 3 * loc.val ∧ bankIndexShift loc = 8 - 4 * loc.val) ∧
  noBankIndexShift 0 = some 11 ∧ noBankIndexShift 1 = some 0 ∧ noBankIndexShift 2 = none ∧
  (∀ (p : Params) (t : Token), bankOf t = none → opndEnc p t 2 = .error .invalidOperandPosition)

/-- 43_operand_encoder.md R121: the bank table is searched first-match in its order; code 111 is never produced. -/
def Obligations.BankTableIsFirstMatch : Prop :=
  bankTable.map (fun x => (x.1, x.2.code)) =
    [(ascii "BANK", 0b000), (ascii "GRF_A", 0b001), (ascii "GRF_B", 0b010), (ascii "SRF_A", 0b011),
     (ascii "SRF_M", 0b100), (ascii "L_IQ", 0b101), (ascii "R_IQ", 0b110)] ∧
  (∀ (t : Token) (b : Bank), bankOf t = some b ↔
    ∃ pre pat post, bankTable = pre ++ (pat, b) :: post ∧ pat <:+: t ∧ ∀ x ∈ pre, ¬ x.1 <:+: t) ∧
  (∀ t : Token, bankOf t = none ↔ ∀ x ∈ bankTable, ¬ x.1 <:+: t) ∧
  ∀ b : Bank, b.code ≠ 0b111

/-- From 43_operand_encoder.md R120, R122, R123, R128: an operand is encoded exactly when it is accepted, and its
contribution is the bank code at 25 - 3*loc ORed with the index value at 8 - 4*loc, or without a bank the index value at
11 - 11*loc. -/
def Obligations.OperandContribution : Prop :=
  ∀ (p : Params) (t : Token) (loc : Fin 3),
    (¬ OperandAccepted p t loc → opndEnc p t loc = .error .invalidOperandPosition) ∧
    (OperandAccepted p t loc → ∃ f, opndEnc p t loc = .ok f ∧
      (∀ b, bankOf t = some b → f.toNat = (b.code.toNat <<< (25 - 3 * loc.val)) |||
        (if hasIndex p t then indexValue p t <<< (8 - 4 * loc.val) else 0)) ∧
      (bankOf t = none → f.toNat = if hasIndex p t then indexValue p t <<< (11 - 11 * loc.val) else 0))

/-- From 43_operand_encoder.md R131 (the spec's decision D6): an operand is rejected for its width exactly when its shifted index value is 2^32 or
more, which is when its magnitude reaches the limit of its schedule and position. -/
def Obligations.WideIndexRejectedAtTheLimit : Prop :=
  (∀ (p : Params) (t : Token) (loc : Fin 3) (s : Nat), hasIndex p t = true → indexShift t loc = some s →
    (opndEnc p t loc = .error .invalidOperandPosition ↔ 2 ^ 32 ≤ indexValue p t <<< s) ∧
    (opndEnc p t loc = .error .invalidOperandPosition ↔ 2 ^ (32 - s) ≤ magnitude p t)) ∧
  (∀ (p : Params) (t : Token), hasIndex p t = true → bankOf t ≠ none →
    (opndEnc p t 0 = .error .invalidOperandPosition ↔ 2 ^ 24 ≤ magnitude p t) ∧
    (opndEnc p t 1 = .error .invalidOperandPosition ↔ 2 ^ 28 ≤ magnitude p t) ∧
    (opndEnc p t 2 = .error .invalidOperandPosition ↔ 2 ^ 32 ≤ magnitude p t)) ∧
  (∀ (p : Params) (t : Token), hasIndex p t = true → bankOf t = none →
    (opndEnc p t 0 = .error .invalidOperandPosition ↔ 2 ^ 21 ≤ magnitude p t) ∧
    (opndEnc p t 1 = .error .invalidOperandPosition ↔ 2 ^ 32 ≤ magnitude p t)) ∧
  opndEnc defaultParams (ascii "GRF_A16777215") 0 = .ok 0x0FFFFFF00 ∧
  opndEnc defaultParams (ascii "GRF_A16777216") 0 = .error .invalidOperandPosition

/-- 43_operand_encoder.md R124: an operand at loc 2 with no bank raises InvalidOperandPosition whatever its digits are
and whatever the policy is. -/
def Obligations.NoBankAtLoc2Rejected : Prop :=
  (∀ (p : Params) (t : Token), bankOf t = none → opndEnc p t 2 = .error .invalidOperandPosition) ∧
  asm defaultParams (tokens defaultParams (ascii "JUMP 7 3 2")) = .error .invalidOperandPosition ∧
  asm defaultParams (tokens defaultParams (ascii "FILL X Y Z")) = .error .invalidOperandPosition

/-- From 43_operand_encoder.md R130 (the spec's decision D5, a parameter): an operand with no bank and no digit at loc 0 or 1 contributes nothing under `ignore`,
and is rejected under `reject`; at loc 2 it is always rejected. -/
def Obligations.EmptyOperandPolicy : Prop :=
  (∀ (p : Params) (t : Token) (loc : Fin 3), bankOf t = none → hasIndex p t = false →
    (loc ≠ 2 → p.emptyOperand = .ignore → opndEnc p t loc = .ok 0) ∧
    (loc ≠ 2 → p.emptyOperand = .reject → opndEnc p t loc = .error .invalidOperandPosition) ∧
    (loc = 2 → opndEnc p t loc = .error .invalidOperandPosition)) ∧
  defaultParams.emptyOperand = .ignore ∧
  asm defaultParams (tokens defaultParams (ascii "FILL X Y")) = .ok 0x050000000

/-- 43_operand_encoder.md R129: without a digit only the bank code is set; `-` and `[A` have no effect. -/
def Obligations.NoDigitLeavesOnlyTheBankCode : Prop :=
  (∀ (p : Params) (t : Token) (loc : Fin 3) (f : Contribution), hasIndex p t = false → opndEnc p t loc = .ok f →
    f = BitVec.ofNat 32 (match bankOf t with | some b => b.code.toNat <<< (25 - 3 * loc.val) | none => 0)) ∧
  opndEnc defaultParams (ascii "L_IQ") 0 = .ok 0x0A000000 ∧ opndEnc defaultParams (ascii "-") 0 = .ok 0

/-- 43_operand_encoder.md R126, R127: the index value of a token with an index: bit 7 is set when `-` stands anywhere in
it, bit 3 when `[A` does not, and all other bits are the magnitude's. -/
def Obligations.IndexValueBits : Prop :=
  ∀ (p : Params) (t : Token), hasIndex p t = true →
    (0x2D ∈ t → (indexValue p t).testBit 7 = true) ∧
    (0x2D ∉ t → (indexValue p t).testBit 7 = (magnitude p t).testBit 7) ∧
    (¬ [0x5B, 0x41] <:+: t → (indexValue p t).testBit 3 = true) ∧
    ([0x5B, 0x41] <:+: t → (indexValue p t).testBit 3 = (magnitude p t).testBit 3) ∧
    ∀ k, k ≠ 7 → k ≠ 3 → (indexValue p t).testBit k = (magnitude p t).testBit k

/-- From 43_operand_encoder.md R140 (the spec's inference): the saturating accumulator gives the exact magnitude below 2^32 and 2^32 otherwise, fits
33 bits, and gives the same verdict as the unbounded arithmetic. -/
def Obligations.SaturatingAccumulatorIsExact : Prop :=
  (∀ ds : List Nat, (decimal ds < 2 ^ 32 → saturatingDecimal ds = decimal ds) ∧
    (2 ^ 32 ≤ decimal ds → saturatingDecimal ds = 2 ^ 32) ∧ saturatingDecimal ds < 2 ^ 33) ∧
  ∀ (p : Params) (t : Token) (loc : Fin 3) (s : Nat), indexShift t loc = some s →
    (2 ^ (32 - s) ≤ saturatingDecimal (digits p t) ↔ 2 ^ 32 ≤ indexValue p t <<< s)

/-! ## The Assembler -/

/-- 44_instruction_assembler.md R153: T[k], for k = 1, 2, 3, is encoded at loc k - 1; tokens after are ignored. -/
def Obligations.ExtraOperandsIgnored : Prop :=
  (∀ (ops : List Token) (t : Token) (loc : Fin 3), (t, loc) ∈ placeOperands ops ↔ ops[loc.val]? = some t) ∧
  (∀ (p : Params) (m : Token) (ops : List Token), asm p (m :: ops) = asm p (m :: ops.take 3)) ∧
  asm defaultParams (tokens defaultParams (ascii "SACC GRF_A1 GRF_B2 SRF_A3 EXTRA")) = .ok 0x0C29809AB ∧
  asm defaultParams (tokens defaultParams (ascii "SACC GRF_A1 GRF_B2 SRF_A3")) = .ok 0x0C29809AB

/-- From 44_instruction_assembler.md R155 (the order is the spec's decision D7): operands are taken in increasing loc order, and the first one that raises ends the
transaction with its error and no word. -/
def Obligations.FirstFailingOperandDecides : Prop :=
  (∀ ops : List Token, (placeOperands ops).map (fun x => x.2.val) = List.range (min ops.length 3)) ∧
  ∀ (p : Params) (m t : Token) (ops : List Token) (op : Op) (pre post : List (Token × Fin 3)) (loc : Fin 3)
    (e : EncodeError), opcLookup m = some op → placeOperands ops = pre ++ (t, loc) :: post →
    (∀ x ∈ pre, ∃ f, opndEnc p x.1 x.2 = .ok f) → opndEnc p t loc = .error e →
    asm p (m :: ops) = .error e

/-- From 44_instruction_assembler.md R156 (the precedence is the spec's decision D7): if the mnemonic misses and an operand would fail too, the result is
UnknownOperation. -/
def Obligations.MnemonicIsTestedFirst : Prop :=
  (∀ (p : Params) (m t : Token) (ops : List Token) (loc : Fin 3) (e : EncodeError), opcLookup m = none →
    (t, loc) ∈ placeOperands ops → opndEnc p t loc = .error e → asm p (m :: ops) = .error .unknownOperation) ∧
  asm defaultParams (tokens defaultParams (ascii "FOO 1 2 3")) = .error .unknownOperation ∧
  opndEnc defaultParams (ascii "3") 2 = .error .invalidOperandPosition

/-- 44_instruction_assembler.md R154: the word is the OR of the opcode, the flag and every encoded operand's
contribution, in whatever order the operands are ORed. -/
def Obligations.WordIsTheOrOfTheContributions : Prop :=
  ∀ (p : Params) (m : Token) (ops : List Token) (op : Op), opcLookup m = some op → OperandsAccepted p ops →
    ∀ l : List (Token × Fin 3), l.Perm (placeOperands ops) →
      asm p (m :: ops) = .ok (l.foldl
        (fun w x => w ||| (match opndEnc p x.1 x.2 with | .ok f => f.setWidth 34 | .error _ => 0))
        (opcodeContribution op.code ||| flagContribution (flagDec m)))

/-- From 44_instruction_assembler.md R157 (enforced by the spec's decisions D6, D21): on success bits 33:32 are 0, since every contribution is below 2^32. -/
def Obligations.SuccessWordsEndBelowBit32 : Prop :=
  (∀ (p : Params) (toks : List Token) (w : Word), asm p toks = .ok w → w.extractLsb' 32 2 = 0) ∧
  (∀ c : BitVec 4, (opcodeContribution c).toNat < 2 ^ 32) ∧
  (∀ aam : Bool, (flagContribution aam).toNat < 2 ^ 32) ∧
  ∀ (t : Token) (loc : Fin 3), bankField t loc ≤ 6 <<< 25

/-- From 44_instruction_assembler.md R160 (the spec's inference), with its counter-example: bits 31:28 are the code
where every encoded index part is below 2^28. -/
def Obligations.OpcodeBitsBelowTheBound : Prop :=
  (∀ (p : Params) (m : Token) (ops : List Token) (op : Op) (w : Word), opcLookup m = some op →
    asm p (m :: ops) = .ok w → IndicesBelow p ops (2 ^ 28) → w.extractLsb' 28 4 = op.code) ∧
  ∃ w, asm defaultParams (tokens defaultParams (ascii "MOV 2097151")) = .ok w ∧ w.extractLsb' 28 4 = 0b1111

/-- From 44_instruction_assembler.md R161 (the spec's inference), with its counter-example: under small indices the bank
bits of a position are its operand's bank code. -/
def Obligations.BankBitsUnderSmallIndices : Prop :=
  (∀ (p : Params) (m t : Token) (ops : List Token) (loc : Fin 3) (b : Bank) (w : Word),
    asm p (m :: ops) = .ok w → IndicesBelow p ops (2 ^ 19) → (t, loc) ∈ placeOperands ops → bankOf t = some b →
    w.extractLsb' (25 - 3 * loc.val) 3 = b.code) ∧
  asm defaultParams (tokens defaultParams (ascii "MOV GRF_A2048 BANK BANK")) = .ok 0x042080800 ∧
  opndEnc defaultParams (ascii "GRF_A2048") 0 = .ok 0x02080800 ∧
  (0x042080800 : Word).extractLsb' 19 3 = 0b001

/-- From 44_instruction_assembler.md R162 (the spec's inference), with its counter-example: when bit 15 is the flag. -/
def Obligations.FlagBitOfTheWord : Prop :=
  (∀ (p : Params) (m : Token) (ops : List Token) (w : Word), asm p (m :: ops) = .ok w →
    (flagDec m = true → w.getLsbD 15 = true) ∧
    (flagDec m = false → (w.getLsbD 15 = false ↔
      ∀ t loc f, (t, loc) ∈ placeOperands ops → opndEnc p t loc = .ok f → f.getLsbD 15 = false)) ∧
    ((∀ t loc, (t, loc) ∈ placeOperands ops → hasIndex p t = true → magnitude p t ≤ 7) → flagDec m = false →
      (w.getLsbD 15 = false ↔ ∀ t, ops[0]? = some t → bankOf t ≠ none →
        contains t (ascii "-") = false ∨ hasIndex p t = false))) ∧
  ∃ w, asm defaultParams (tokens defaultParams (ascii "MOV GRF_A-1")) = .ok w ∧ w.getLsbD 15 = true ∧
    flagDec (ascii "MOV") = false

/-- From 44_instruction_assembler.md R163 (the spec's inference): the negative marker, read on the index value and at the word, with its
counter-examples. -/
def Obligations.NegativeMarkerOfTheIndex : Prop :=
  (∀ (p : Params) (t : Token), hasIndex p t = true →
    (contains t (ascii "-") = true → (indexValue p t).testBit 7 = true) ∧
    (contains t (ascii "-") = false → (magnitude p t).testBit 7 = false → (indexValue p t).testBit 7 = false) ∧
    (contains t (ascii "-") = false → magnitude p t < 128 → (indexValue p t).testBit 7 = false)) ∧
  (∀ (p : Params) (m t : Token) (ops : List Token) (op : Op) (loc : Fin 3) (s : Nat) (w : Word),
    opcLookup m = some op → asm p (m :: ops) = .ok w → (t, loc) ∈ placeOperands ops → hasIndex p t = true →
    indexShift t loc = some s →
    (contains t (ascii "-") = true → w.getLsbD (7 + s) = true) ∧
    (contains t (ascii "-") = false → (magnitude p t).testBit 7 = false →
      (headWord op m).getLsbD (7 + s) = false →
      (∀ t' loc' f, (t', loc') ∈ placeOperands ops → loc' ≠ loc → opndEnc p t' loc' = .ok f →
        f.getLsbD (7 + s) = false) →
      w.getLsbD (7 + s) = false)) ∧
  ((indexValue defaultParams (ascii "GRF_A200")).testBit 7 = true ∧ contains (ascii "GRF_A200") (ascii "-") = false) ∧
  ∃ w, asm defaultParams (tokens defaultParams (ascii "MOV GRF_A1 BANK2")) = .ok w ∧ w.getLsbD 11 = true

/-- From 44_instruction_assembler.md R164 (the spec's inference): the direct marker, read on the index value and at the word, with its
counter-example. -/
def Obligations.DirectMarkerOfTheIndex : Prop :=
  (∀ (p : Params) (t : Token), hasIndex p t = true →
    (contains t (ascii "[A") = false → (indexValue p t).testBit 3 = true) ∧
    (contains t (ascii "[A") = true → (magnitude p t).testBit 3 = false → (indexValue p t).testBit 3 = false)) ∧
  (∀ (p : Params) (m t : Token) (ops : List Token) (op : Op) (loc : Fin 3) (s : Nat) (w : Word),
    opcLookup m = some op → asm p (m :: ops) = .ok w → (t, loc) ∈ placeOperands ops → hasIndex p t = true →
    indexShift t loc = some s →
    (contains t (ascii "[A") = false → w.getLsbD (3 + s) = true) ∧
    (contains t (ascii "[A") = true → (magnitude p t).testBit 3 = false →
      (headWord op m).getLsbD (3 + s) = false →
      (∀ t' loc' f, (t', loc') ∈ placeOperands ops → loc' ≠ loc → opndEnc p t' loc' = .ok f →
        f.getLsbD (3 + s) = false) →
      w.getLsbD (3 + s) = false)) ∧
  ((indexValue defaultParams (ascii "SRF_M[A8]")).testBit 3 = true ∧
    contains (ascii "SRF_M[A8]") (ascii "[A") = true)

/-- From 30_encoding.md R66 (the spec's inference): with every magnitude at most 7, bits 17:16 stay 0, bits 27:19 are written by bank codes
only, and the OPC field is the code. -/
def Obligations.WordBitsWithSmallMagnitudes : Prop :=
  ∀ (p : Params) (m : Token) (ops : List Token) (op : Op) (w : Word), opcLookup m = some op →
    asm p (m :: ops) = .ok w →
    (∀ t loc, (t, loc) ∈ placeOperands ops → hasIndex p t = true → magnitude p t ≤ 7) →
    w.extractLsb' 16 2 = 0 ∧ w.extractLsb' 28 4 = op.code ∧
    ∀ loc : Fin 3, w.extractLsb' (25 - 3 * loc.val) 3 =
      match ops[loc.val]? with
      | none => 0
      | some t => match bankOf t with
        | none => 0
        | some b => b.code

/-- From 30_encoding.md R67 (the spec's inference): the encoding is not injective: its examples. -/
def Obligations.EncodingIsNotInjective : Prop :=
  (∀ line ∈ [ascii "MOV GRF_A1 BANK2", ascii "MOV GRF_A1 BANK-2"],
    asm defaultParams (tokens defaultParams line) = .ok 0x0420009A0) ∧
  (∀ line ∈ [ascii "MOV GRF_A-1", ascii "MOV(AAM) GRF_A1"],
    asm defaultParams (tokens defaultParams line) = .ok 0x042008900) ∧
  (∀ line ∈ [ascii "MOV", ascii "MOV BANK", ascii "MOV X", ascii "MOV -"],
    asm defaultParams (tokens defaultParams line) = .ok 0x040000000) ∧
  ∀ (p : Params) (t : Token) (loc : Fin 3), bankOf t = some .bank → hasIndex p t = false → opndEnc p t loc = .ok 0

/-- 30_encoding.md R69: the table never produces a reserved code; a word whose OPC field holds one has an operand whose
index reaches the field; and such words are produced without an error. -/
def Obligations.ReservedCodesComeOnlyFromCollisions : Prop :=
  (∀ (m : Token) (op : Op), opcLookup m = some op →
    op.code ∉ ([0b0011, 0b0110, 0b0111, 0b1101, 0b1110, 0b1111] : List (BitVec 4))) ∧
  (∀ (p : Params) (m : Token) (ops : List Token) (w : Word), asm p (m :: ops) = .ok w →
    w.extractLsb' 28 4 ∈ ([0b0011, 0b0110, 0b0111, 0b1101, 0b1110, 0b1111] : List (BitVec 4)) →
    ∃ x ∈ placeOperands ops, 2 ^ 28 ≤ indexPart p x.1 x.2) ∧
  asm defaultParams (tokens defaultParams (ascii "NOP GRF_A3145728")) = .ok 0x032000800 ∧
  (0x032000800 : Word).extractLsb' 28 4 = 0b0011 ∧
  asm defaultParams (tokens defaultParams (ascii "MOV 2097151")) = .ok 0x0FFFFF800 ∧
  (0x0FFFFF800 : Word).extractLsb' 28 4 = 0b1111

/-! ## Parallel lanes -/

/-- From 70_reset_and_hazards.md R216 (the spec's decision D17): with any number of lanes and in any schedule, a record is held back until every record
with a lower index has been emitted, so that what is emitted is always a beginning of the sequential run's records, and
all of them once nothing is left. -/
def Obligations.LanesEmitInIndexOrder : Prop :=
  ∀ (p : Params) (input : Bytes) (lanes : Nat) (schedule : List LaneEvent),
    ((LaneMachine.init p input).runSchedule lanes schedule).emitted <+: sequentialRecords p input ∧
    ((LaneMachine.init p input).runSchedule lanes schedule).emitted.map Record.idx =
      List.range ((LaneMachine.init p input).runSchedule lanes schedule).emitted.length ∧
    (((LaneMachine.init p input).runSchedule lanes schedule).drained = true →
      ((LaneMachine.init p input).runSchedule lanes schedule).emitted = sequentialRecords p input)

/-- The spec's inference in 70_reset_and_hazards.md R217, "every run over a finite input ends", read on the model's own
machine with lanes (log 9) and LANES >= 1 (60_exceptions.md R201, the spec's decision D17): with at least one lane, every
run can still be finished from wherever it stands. -/
def Obligations.LanesCanAlwaysFinish : Prop :=
  ∀ (p : Params) (input : Bytes) (lanes : Nat) (schedule : List LaneEvent), 1 ≤ lanes →
    ∃ more, (((LaneMachine.init p input).runSchedule lanes schedule).runSchedule lanes more).drained = true

/-! ## The byte form of a word -/

/-- From 20_memory.md R41 and 00_scope.md R9 (the spec's decision D18; log 8): WORD_BYTE_ORDER changes nothing a run
does. A step under another byte order answers the same next state with that byte order, or the same stop; and without a
byte order no word has a byte form. -/
def Obligations.WordByteOrderChangesNoStep : Prop :=
  (∀ (s : State) (order : Option ByteOrder),
    step { s with params := { s.params with wordByteOrder := order } } =
      match step s with
      | .next t => .next { t with params := { t.params with wordByteOrder := order } }
      | .fault f => .fault f
      | .refused r => .refused r) ∧
  ∀ (p : Params) (w : Word), p.wordByteOrder = none ↔ wordBytes p w = none
end

