-- ==== Sys2Proof/Laws/Text.lean ====
section
/-! SUPPORT. Lemmas about byte strings: pattern search, tokens, line framing, decimal numbers. -/

namespace Sys2Proof

/-! ### Pattern search -/

theorem contains_iff_infix (t p : Bytes) : contains t p = true ↔ p <:+: t := by
  induction t with
  | nil => simp [contains, List.isEmpty_iff]
  | cons b t ih => rw [contains, Bool.or_eq_true, ih, List.isPrefixOf_iff_prefix, List.infix_cons_iff]

theorem contains_append_left {t p : Bytes} (u : Bytes) (h : contains t p = true) : contains (t ++ u) p = true := by
  rw [contains_iff_infix] at h ⊢
  exact h.trans (List.prefix_append t u).isInfix

theorem firstMatch_eq_none {α : Type} (T : List (Bytes × α)) (t : Bytes) :
    firstMatch T t = none ↔ ∀ x ∈ T, contains t x.1 = false := by
  induction T with
  | nil => simp [firstMatch]
  | cons x T ih => by_cases h : contains t x.1 = true <;> simp [firstMatch, h, ih]

/-- The entry a first match comes from: it matches, and no earlier entry does. -/
theorem firstMatch_eq_some {α : Type} (T : List (Bytes × α)) (t : Bytes) (c : α) :
    firstMatch T t = some c ↔
      ∃ pre p post, T = pre ++ (p, c) :: post ∧ contains t p = true ∧ ∀ x ∈ pre, contains t x.1 = false := by
  induction T with
  | nil => simp [firstMatch]
  | cons x T ih =>
    by_cases h : contains t x.1 = true
    · simp only [firstMatch, h, if_true, Option.some.injEq]
      constructor
      · rintro rfl
        exact ⟨[], x.1, T, rfl, h, by simp⟩
      · rintro ⟨pre, p, post, hT, -, hpre⟩
        cases pre with
        | nil => simp at hT; rw [hT.1]
        | cons y pre =>
          simp at hT
          have := hpre y (by simp)
          rw [← hT.1] at this
          simp [h] at this
    · simp only [firstMatch, h, if_false, Bool.false_eq_true, ih]
      constructor
      · rintro ⟨pre, p, post, rfl, hp, hpre⟩
        exact ⟨x :: pre, p, post, rfl, hp, by simpa [h] using hpre⟩
      · rintro ⟨pre, p, post, hT, hp, hpre⟩
        cases pre with
        | nil => simp at hT; rw [hT.1] at h; exact absurd hp h
        | cons y pre =>
          simp at hT
          exact ⟨pre, p, post, hT.2, hp, fun z hz => hpre z (by simp [hz])⟩

/-! ### Tokens -/

/-- The bytes of a cut line, put together again. -/
def joinLexemes (c : List Lexeme × Bytes) : Bytes := c.1.flatMap Lexeme.text ++ c.2

theorem joinLexemes_pushByte (ws : List Byte) (b : Byte) (c : List Lexeme × Bytes) :
    joinLexemes (pushByte ws b c) = b :: joinLexemes c := by
  obtain ⟨xs, trail⟩ := c
  cases xs with
  | nil => by_cases h : isSeparator ws b = true <;> simp [pushByte, joinLexemes, Lexeme.text, h]
  | cons x xs =>
    obtain ⟨sep, tok⟩ := x
    by_cases h : isSeparator ws b = true
    · simp [pushByte, joinLexemes, Lexeme.text, h]
    · cases sep <;> simp [pushByte, joinLexemes, Lexeme.text, h]

/-- Cutting a line loses no byte. -/
theorem joinLexemes_splitLine (ws : List Byte) (line : Bytes) : joinLexemes (splitLine ws line) = line := by
  induction line with
  | nil => rfl
  | cons b line ih => rw [splitLine, joinLexemes_pushByte, ih]

/-- A token as cutting gives it: not empty, no separator byte in it, only separator bytes before it. -/
def GoodLexeme (ws : List Byte) (x : Lexeme) : Prop :=
  x.tok ≠ [] ∧ (∀ b ∈ x.tok, isSeparator ws b = false) ∧ ∀ b ∈ x.sep, isSeparator ws b = true

/-- A cut line: good tokens, each but the first after at least one separator byte, and a trail of separators. -/
def GoodCut (ws : List Byte) (c : List Lexeme × Bytes) : Prop :=
  (∀ x ∈ c.1, GoodLexeme ws x) ∧ (∀ x ∈ c.1.tail, x.sep ≠ []) ∧ ∀ b ∈ c.2, isSeparator ws b = true

theorem goodCut_pushByte {ws : List Byte} {c : List Lexeme × Bytes} (b : Byte) (h : GoodCut ws c) :
    GoodCut ws (pushByte ws b c) := by
  obtain ⟨xs, trail⟩ := c
  obtain ⟨h1, h2, h3⟩ := h
  cases xs with
  | nil =>
    by_cases hb : isSeparator ws b = true
    · simp_all [pushByte, GoodCut]
    · simp_all [pushByte, GoodCut, GoodLexeme]
  | cons x xs =>
    obtain ⟨sep, tok⟩ := x
    have hx := h1 ⟨sep, tok⟩ (by simp)
    have hxs : ∀ y ∈ xs, GoodLexeme ws y := fun y hy => h1 y (by simp [hy])
    have key : ∀ y : Lexeme, GoodLexeme ws y → ∀ z ∈ y :: xs, GoodLexeme ws z := by
      intro y hy z hz
      rcases List.mem_cons.1 hz with rfl | hz
      exacts [hy, hxs z hz]
    by_cases hb : isSeparator ws b = true
    · simp only [pushByte, hb, if_true]
      exact ⟨key _ ⟨hx.1, hx.2.1, by simpa [hb] using hx.2.2⟩, h2, h3⟩
    · have hb' : isSeparator ws b = false := by simpa using hb
      cases sep with
      | nil =>
        simp only [pushByte, hb', List.isEmpty_nil, if_true, Bool.false_eq_true, if_false]
        exact ⟨key _ ⟨by simp, by simpa [hb'] using hx.2.1, by simp⟩, h2, h3⟩
      | cons c sep =>
        simp only [pushByte, hb', List.isEmpty_cons, Bool.false_eq_true, if_false]
        refine ⟨?_, ?_, h3⟩
        · intro z hz
          rcases List.mem_cons.1 hz with rfl | hz
          exacts [⟨by simp, by simpa using hb', by simp⟩, h1 z hz]
        · intro z hz
          rcases List.mem_cons.1 hz with rfl | hz
          exacts [by simp, h2 z hz]

theorem goodCut_splitLine (ws : List Byte) (line : Bytes) : GoodCut ws (splitLine ws line) := by
  induction line with
  | nil => simp [splitLine, GoodCut]
  | cons b line ih => exact goodCut_pushByte b ih

/-- Separators in front of a line whose first token has none of its own join that token. -/
theorem splitLine_separators_append {ws : List Byte} (sep line : Bytes) (h : ∀ b ∈ sep, isSeparator ws b = true) :
    splitLine ws (sep ++ line) =
      match splitLine ws line with
      | ([], trail) => ([], sep ++ trail)
      | (x :: xs, trail) => (⟨sep ++ x.sep, x.tok⟩ :: xs, trail) := by
  induction sep with
  | nil => rcases h : splitLine ws line with ⟨_ | ⟨x, xs⟩, trail⟩ <;> simp [h]
  | cons b sep ih =>
    have hb : isSeparator ws b = true := h b (by simp)
    rw [List.cons_append, splitLine, ih fun c hc => h c (by simp [hc])]
    rcases splitLine ws line with ⟨_ | ⟨x, xs⟩, trail⟩ <;> simp [pushByte, hb]

/-- A token in front of a line that begins with a separator or is empty is a token of its own. -/
theorem splitLine_token_append {ws : List Byte} (tok line : Bytes) (hne : tok ≠ [])
    (h : ∀ b ∈ tok, isSeparator ws b = false)
    (hline : ∀ x xs, (splitLine ws line).1 = x :: xs → x.sep ≠ []) :
    splitLine ws (tok ++ line) = (⟨[], tok⟩ :: (splitLine ws line).1, (splitLine ws line).2) := by
  induction tok with
  | nil => exact absurd rfl hne
  | cons b tok ih =>
    have hb : isSeparator ws b = false := h b (by simp)
    by_cases htok : tok = []
    · subst htok
      simp only [List.cons_append, List.nil_append, splitLine]
      rcases hc : splitLine ws line with ⟨_ | ⟨x, xs⟩, trail⟩
      · simp [pushByte, hb]
      · have hx := hline x xs (by rw [hc])
        simp [pushByte, hb, hx]
    · rw [List.cons_append, splitLine, ih htok fun c hc => h c (by simp [hc])]
      simp [pushByte, hb]

/-- Cutting the bytes of a cut line gives it back. -/
theorem splitLine_joinLexemes {ws : List Byte} (xs : List Lexeme) (trail : Bytes) (h : GoodCut ws (xs, trail)) :
    splitLine ws (joinLexemes (xs, trail)) = (xs, trail) := by
  induction xs with
  | nil =>
    have := splitLine_separators_append trail [] h.2.2
    simpa [splitLine, joinLexemes] using this
  | cons x xs ih =>
    obtain ⟨h1, h2, h3⟩ := h
    have hx := h1 x (by simp)
    have hrest : splitLine ws (joinLexemes (xs, trail)) = (xs, trail) :=
      ih ⟨fun y hy => h1 y (by simp [hy]), fun y hy => h2 y (List.mem_of_mem_tail hy), h3⟩
    have hline : joinLexemes (x :: xs, trail) = x.sep ++ (x.tok ++ joinLexemes (xs, trail)) := by
      simp [joinLexemes, Lexeme.text]
    have htok := splitLine_token_append x.tok (joinLexemes (xs, trail)) hx.1 hx.2.1 (by
      intro y ys hy
      rw [hrest] at hy
      exact h2 y (by simp at hy ⊢; simp [hy]))
    rw [hline, splitLine_separators_append _ _ hx.2.2, htok, hrest]
    simp

/-- A line of separators only has no token. -/
theorem tokens_of_separators {p : Params} {line : Bytes} (h : ∀ b ∈ line, isSeparator p.wsSet b = true) :
    tokens p line = [] := by
  have := splitLine_separators_append line [] h
  simp only [List.append_nil, splitLine] at this
  simp [tokens, this]

/-! ### Line framing -/

theorem readLine_nil : readLine [] = none := rfl

theorem readLine_cons (b : Byte) (rest : Bytes) : readLine (b :: rest) = some (cutLine (b :: rest)) := rfl

/-- Line by line reading gives the lines of the stream. -/
theorem streamLines_cons (b : Byte) (rest : Bytes) :
    streamLines (b :: rest) = (cutLine (b :: rest)).1 :: streamLines (cutLine (b :: rest)).2 := by
  induction rest generalizing b with
  | nil =>
    by_cases h : b = lf
    · simp [streamLines, cutLine, h]
    · by_cases h' : b = cr <;> simp [streamLines, cutLine, h]
  | cons c rest ih =>
    by_cases h : b = lf
    · simp [streamLines, cutLine, h]
    · by_cases h' : b = cr ∧ c = lf
      · simp [streamLines, cutLine, h', show (cr : Byte) ≠ lf by decide]
      · have e1 : streamLines (b :: c :: rest) =
            (b :: (cutLine (c :: rest)).1) :: streamLines (cutLine (c :: rest)).2 := by
          rw [streamLines, if_neg h, if_neg (by simpa using h'), ih c]
        have e2 : cutLine (b :: c :: rest) = (b :: (cutLine (c :: rest)).1, (cutLine (c :: rest)).2) := by
          rw [cutLine, if_neg h, if_neg (by simpa using h')]
        rw [e1, e2]

theorem streamLines_of_readLine {stream line after : Bytes} (h : readLine stream = some (line, after)) :
    streamLines stream = line :: streamLines after := by
  cases stream with
  | nil => simp [readLine] at h
  | cons b rest =>
    rw [readLine_cons, Option.some.injEq] at h
    rw [streamLines_cons, h]

theorem streamLines_of_eof {stream : Bytes} (h : readLine stream = none) : streamLines stream = [] := by
  cases stream with
  | nil => rfl
  | cons b rest => simp [readLine] at h

/-- A line without LF, then CR LF. -/
theorem cutLine_crlf (line rest : Bytes) (h : lf ∉ line) : cutLine (line ++ cr :: lf :: rest) = (line, rest) := by
  induction line with
  | nil => simp [cutLine, show (cr : Byte) ≠ lf by decide]
  | cons b line ih =>
    have hb : b ≠ lf := fun e => h (by simp [e])
    have hhead : (line ++ cr :: lf :: rest).head? ≠ some lf := by
      cases line with
      | nil => simp [show (cr : Byte) ≠ lf by decide]
      | cons c line =>
        simp only [List.cons_append, List.head?_cons, ne_eq, Option.some.injEq]
        exact fun e => h (by simp [e])
    rw [List.cons_append, cutLine, ih fun e => h (by simp [e]), if_neg hb, if_neg fun e => hhead e.2]

/-- A line without LF and not ending in CR, then LF. -/
theorem cutLine_lf (line rest : Bytes) (h : lf ∉ line) (hcr : line.getLast? ≠ some cr) :
    cutLine (line ++ lf :: rest) = (line, rest) := by
  induction line with
  | nil => simp [cutLine]
  | cons b line ih =>
    have hb : b ≠ lf := fun e => h (by simp [e])
    have hnot : ¬ (b = cr ∧ (line ++ lf :: rest).head? = some lf) := by
      rintro ⟨rfl, hh⟩
      cases line with
      | nil => simp at hcr
      | cons c line =>
        simp only [List.cons_append, List.head?_cons, Option.some.injEq] at hh
        exact h (by simp [hh])
    have hcr' : line.getLast? ≠ some cr := by
      cases line with
      | nil => simp
      | cons c line => simpa [List.getLast?_cons_cons] using hcr
    rw [List.cons_append, cutLine, ih (fun e => h (by simp [e])) hcr', if_neg hb, if_neg hnot]

/-- A last line without LF. -/
theorem cutLine_eof (line : Bytes) (h : lf ∉ line) : cutLine line = (line, []) := by
  induction line with
  | nil => rfl
  | cons b line ih =>
    have hb : b ≠ lf := fun e => h (by simp [e])
    have hhead : line.head? ≠ some lf := by
      cases line with
      | nil => simp
      | cons c line =>
        simp only [List.head?_cons, ne_eq, Option.some.injEq]
        exact fun e => h (by simp [e])
    rw [cutLine, ih fun e => h (by simp [e]), if_neg hb, if_neg fun e => hhead e.2]

/-! ### Decimal numbers -/

theorem decimal_append (ds es : List Nat) : decimal (ds ++ es) = decimal ds * 10 ^ es.length + decimal es := by
  unfold decimal
  rw [List.foldl_append]
  generalize ds.foldl (fun acc d => acc * 10 + d) 0 = a
  induction es generalizing a with
  | nil => simp
  | cons d es ih =>
    have e1 := ih (a * 10 + d)
    have e2 := ih (0 * 10 + d)
    simp only [List.foldl_cons, List.length_cons, Nat.pow_succ]
    rw [e1, e2]
    ring

theorem decimal_singleton (d : Nat) : decimal [d] = d := by simp [decimal]

/-- The digits of `decimalTextAux`'s text are those of the number, in front of the digits of `acc`. -/
theorem decimalTextAux_eq (fuel n : Nat) (acc : Bytes) (h : n < 10 ^ fuel) (hf : 0 < fuel) :
    ∃ ds : List Nat, ds ≠ [] ∧ (∀ d ∈ ds, d < 10) ∧ decimal ds = n ∧ (n ≠ 0 → ds.head? ≠ some 0) ∧
      decimalTextAux fuel n acc = ds.map digitByte ++ acc := by
  induction fuel generalizing n acc with
  | zero => omega
  | succ fuel ih =>
    by_cases hn : n < 10
    · exact ⟨[n], by simp, by simpa using hn, by simp [decimal], by simp, by simp [decimalTextAux, hn]⟩
    · have hf' : 0 < fuel := by
        rcases fuel with _ | fuel
        · simp at h; omega
        · omega
      have hlt : n / 10 < 10 ^ fuel := by
        rw [Nat.pow_succ] at h
        omega
      obtain ⟨ds, h1, h2, h3, h4, h5⟩ := ih (n / 10) (digitByte (n % 10) :: acc) hlt hf'
      refine ⟨ds ++ [n % 10], by simp, ?_, ?_, ?_, ?_⟩
      · intro d hd
        rcases List.mem_append.1 hd with hd | hd
        · exact h2 d hd
        · simp at hd; omega
      · rw [decimal_append, h3, decimal_singleton]
        simp only [List.length_singleton]
        omega
      · intro _
        cases ds with
        | nil => exact absurd rfl h1
        | cons d ds => simpa using h4 (by omega)
      · rw [decimalTextAux, if_neg hn, h5]
        simp

/-- The text of a number: its decimal digits, without a leading zero unless it is 0. -/
theorem decimalText_eq (n : Nat) :
    ∃ ds : List Nat, ds ≠ [] ∧ (∀ d ∈ ds, d < 10) ∧ decimal ds = n ∧ (n ≠ 0 → ds.head? ≠ some 0) ∧
      decimalText n = ds.map digitByte := by
  have h : n < 10 ^ (n.log2 + 1) :=
    lt_of_lt_of_le Nat.lt_log2_self (Nat.pow_le_pow_left (by omega) _)
  simpa [decimalText] using decimalTextAux_eq (n.log2 + 1) n [] h (by omega)

theorem lookup_digitByte {d : Nat} (h : d < 10) : defaultDigitSet.lookup (digitByte d) = some d := by
  interval_cases d <;> decide

theorem digits_map_digitByte (ds : List Nat) (h : ∀ d ∈ ds, d < 10) :
    digits defaultParams (ds.map digitByte) = ds := by
  induction ds with
  | nil => rfl
  | cons d ds ih =>
    have hd := lookup_digitByte (h d (by simp))
    have hrest := ih fun e he => h e (by simp [he])
    have hd' : defaultParams.digitSet.lookup (digitByte d) = some d := hd
    rw [digits, List.map_cons, List.filterMap_cons, hd']
    exact congrArg (d :: ·) hrest

theorem digits_append (p : Params) (t u : Bytes) : digits p (t ++ u) = digits p t ++ digits p u := by
  simp [digits, List.filterMap_append]

end Sys2Proof
end

