-- ==== Sys2Proof/Laws/Operands.lean ====
section
/-! SUPPORT. Lemmas about the Operand Encoder. -/

namespace Sys2Proof.Machine

open Sys2Proof

theorem testBit_setBit (v i j : Nat) : (setBit v i).testBit j = (v.testBit j || decide (i = j)) := by
  simp [setBit, Nat.shiftLeft_eq, Nat.testBit_two_pow]

theorem setBit_lt {v i k : Nat} (hi : i < k) : setBit v i < 2 ^ k ↔ v < 2 ^ k := by
  constructor
  · exact fun h => lt_of_le_of_lt Nat.left_le_or h
  · intro h
    refine Nat.or_lt_two_pow h ?_
    rw [Nat.shiftLeft_eq, one_mul]
    exact Nat.pow_lt_pow_right (by omega) hi

/-- The bits of the index value: the magnitude's, and the two markers (43_operand_encoder.md R133). -/
theorem testBit_indexValue (p : Params) (t : Token) (i : Nat) :
    (indexValue p t).testBit i =
      ((magnitude p t).testBit i || (decide (i = 7) && contains t (ascii "-"))
        || (decide (i = 3) && !contains t (ascii "[A"))) := by
  cases h1 : contains t (ascii "-") <;> cases h2 : contains t (ascii "[A") <;>
    simp [indexValue, markDirect, markNegative, h1, h2, testBit_setBit, eq_comm]

/-- The markers never decide the width check: they lie below bit 8 (43_operand_encoder.md R131). -/
theorem indexValue_lt_iff (p : Params) (t : Token) {k : Nat} (hk : 8 ≤ k) :
    indexValue p t < 2 ^ k ↔ magnitude p t < 2 ^ k := by
  cases h1 : contains t (ascii "-") <;> cases h2 : contains t (ascii "[A") <;>
    simp [indexValue, markDirect, markNegative, h1, h2, setBit_lt (show 7 < k by omega), setBit_lt (show 3 < k by omega)]

theorem shiftLeft_lt_iff (v : Nat) {s n : Nat} (h : s ≤ n) : v <<< s < 2 ^ n ↔ v < 2 ^ (n - s) := by
  rw [Nat.shiftLeft_eq, ← Nat.sub_add_cancel h, Nat.pow_add, Nat.mul_lt_mul_right (Nat.two_pow_pos s)]
  simp

theorem bankField_lt (t : Token) (loc : Fin 3) : bankField t loc < 2 ^ 28 := by
  unfold bankField
  rcases bankOf t with _ | b
  · simp
  · cases b <;> fin_cases loc <;> decide

/-- The bank contribution is the code at its place and nothing else (43_operand_encoder.md R122). -/
theorem testBit_bankField (t : Token) (loc : Fin 3) (k : Nat) :
    (bankField t loc).testBit k =
      (decide (bankShift loc ≤ k) && ((bankOf t).elim 0 fun b => b.code.toNat).testBit (k - bankShift loc)) := by
  unfold bankField
  rcases bankOf t with _ | b
  · simp
  · simp [Nat.testBit_shiftLeft]

theorem testBit_bankField_low (t : Token) (loc : Fin 3) {k : Nat} (hk : k < 19) :
    (bankField t loc).testBit k = false := by
  have : ¬ bankShift loc ≤ k := by fin_cases loc <;> simp [bankShift] <;> omega
  simp [testBit_bankField, this]

theorem indexShift_eq_none (t : Token) (loc : Fin 3) : indexShift t loc = none ↔ bankOf t = none ∧ loc = 2 := by
  unfold indexShift
  rcases bankOf t with _ | b
  · fin_cases loc <;> simp [noBankIndexShift]
  · simp

/-- The cases of the index shift: a bank matched, or the operand is at loc 0 or 1 (30_encoding.md R62). -/
theorem indexShift_cases {t : Token} {loc : Fin 3} {s : Nat} (h : indexShift t loc = some s) :
    (∃ b, bankOf t = some b ∧ s = bankIndexShift loc) ∨
      (bankOf t = none ∧ (loc = 0 ∧ s = 11 ∨ loc = 1 ∧ s = 0)) := by
  unfold indexShift at h
  rcases hb : bankOf t with _ | b
  · simp only [hb] at h
    fin_cases loc <;> simp_all [noBankIndexShift]
  · simp only [hb, Option.some.injEq] at h
    exact .inl ⟨b, rfl, h.symm⟩

theorem bankIndexShift_le (loc : Fin 3) : bankIndexShift loc ≤ 8 := by fin_cases loc <;> decide

theorem indexShift_le {t : Token} {loc : Fin 3} {s : Nat} (h : indexShift t loc = some s) : s ≤ 11 := by
  have := bankIndexShift_le loc
  rcases indexShift_cases h with ⟨b, -, rfl⟩ | ⟨-, ⟨-, rfl⟩ | ⟨-, rfl⟩⟩ <;> omega

/-- The magnitude limit is the width check's bound (43_operand_encoder.md R131). -/
theorem magnitudeLimit_eq {t : Token} {loc : Fin 3} {s : Nat} (h : indexShift t loc = some s) :
    magnitudeLimit t loc = 2 ^ (32 - s) := by
  unfold magnitudeLimit
  rcases indexShift_cases h with ⟨b, hb, rfl⟩ | ⟨hb, ⟨rfl, rfl⟩ | ⟨rfl, rfl⟩⟩
  · rw [hb]
    fin_cases loc <;> rfl
  · rw [hb]
  · rw [hb]

/-- The width check, read on the magnitude. -/
theorem index_shifted_lt_iff (p : Params) {t : Token} {loc : Fin 3} {s : Nat} (h : indexShift t loc = some s) :
    indexValue p t <<< s < 2 ^ 32 ↔ magnitude p t < magnitudeLimit t loc := by
  have := indexShift_le h
  rw [shiftLeft_lt_iff _ (by omega), magnitudeLimit_eq h, indexValue_lt_iff _ _ (by omega)]

/-- Everything OPND_ENC does on an accepted operand. -/
theorem opndEnc_of_accepted {p : Params} {t : Token} {loc : Fin 3} (h : OperandAccepted p t loc) :
    opndEnc p t loc = .ok (BitVec.ofNat 32 (operandBits p t loc)) := by
  obtain ⟨h1, h2, h3⟩ := h
  rcases hs : indexShift t loc with _ | s
  · rw [indexShift_eq_none] at hs
    simp_all
  · rcases hi : hasIndex p t with _ | _
    · have hp := h3 hi
      have : ¬ ((bankOf t).isNone = true ∧ p.emptyOperand = .reject) := by
        rintro ⟨e1, e2⟩
        simp [e2, Option.isNone_iff_eq_none.1 e1] at hp
      simp only [opndEnc, hs, hi, operandBits, indexPart, this, Bool.false_eq_true, if_false, Nat.or_zero]
    · have hlt := (index_shifted_lt_iff p hs).2 (h2 hi)
      simp only [opndEnc, hs, hi, operandBits, indexPart, Option.getD_some, if_true, if_neg (not_le.2 hlt)]

/-- Everything OPND_ENC does on an operand that is not accepted (43_operand_encoder.md R132). -/
theorem opndEnc_of_not_accepted {p : Params} {t : Token} {loc : Fin 3} (h : ¬ OperandAccepted p t loc) :
    opndEnc p t loc = .error .invalidOperandPosition := by
  rcases hs : indexShift t loc with _ | s
  · simp [opndEnc, hs]
  · have h1 : bankOf t ≠ none ∨ loc ≠ 2 := by
      by_contra hc
      push Not at hc
      rw [(indexShift_eq_none t loc).2 hc] at hs
      exact absurd hs (by simp)
    rcases hi : hasIndex p t with _ | _
    · have : (bankOf t).isNone = true ∧ p.emptyOperand = .reject := by
        by_contra hc
        refine h ⟨h1, by simp [hi], fun _ => ?_⟩
        rcases hb : bankOf t with _ | b
        · refine Or.inr ?_
          rcases he : p.emptyOperand with _ | _
          · rfl
          · exact absurd ⟨by simp [hb], he⟩ hc
        · simp
      simp only [opndEnc, hs, hi, this, Bool.false_eq_true, if_false, and_self, if_true]
    · have : ¬ magnitude p t < magnitudeLimit t loc := fun hm => h ⟨h1, fun _ => hm, by simp [hi]⟩
      rw [← index_shifted_lt_iff p hs, not_lt] at this
      simp only [opndEnc, hs, hi, if_true, if_pos this]

theorem opndEnc_eq_ok_iff {p : Params} {t : Token} {loc : Fin 3} {f : Contribution} :
    opndEnc p t loc = .ok f ↔ OperandAccepted p t loc ∧ f = BitVec.ofNat 32 (operandBits p t loc) := by
  by_cases h : OperandAccepted p t loc
  · simp [opndEnc_of_accepted h, h, eq_comm]
  · simp [opndEnc_of_not_accepted h, h]

theorem opndEnc_eq_error_iff {p : Params} {t : Token} {loc : Fin 3} {e : EncodeError} :
    opndEnc p t loc = .error e ↔ ¬ OperandAccepted p t loc ∧ e = .invalidOperandPosition := by
  by_cases h : OperandAccepted p t loc
  · simp [opndEnc_of_accepted h, h]
  · simp [opndEnc_of_not_accepted h, h, eq_comm]

theorem indexPart_lt {p : Params} {t : Token} {loc : Fin 3} (h : OperandAccepted p t loc) :
    indexPart p t loc < 2 ^ 32 := by
  unfold indexPart
  split
  · rename_i hi
    rcases hs : indexShift t loc with _ | s
    · rw [indexShift_eq_none] at hs
      have := h.1
      simp_all
    · exact (index_shifted_lt_iff p hs).2 (h.2.1 hi)
  · simp

/-- A contribution never reaches bit 32 (43_operand_encoder.md R131). -/
theorem operandBits_lt {p : Params} {t : Token} {loc : Fin 3} (h : OperandAccepted p t loc) :
    operandBits p t loc < 2 ^ 32 :=
  Nat.or_lt_two_pow (lt_trans (bankField_lt t loc) (by norm_num)) (indexPart_lt h)

/-- The saturating accumulator is the magnitude cut off at 2^32 (43_operand_encoder.md R140). -/
theorem saturatingDecimal_foldl (ds : List Nat) (a b : Nat) (h : b = min a (2 ^ 32)) :
    ds.foldl (fun acc d => min (acc * 10 + d) (2 ^ 32)) b = min (ds.foldl (fun acc d => acc * 10 + d) a) (2 ^ 32) := by
  induction ds generalizing a b with
  | nil => exact h
  | cons d ds ih => exact ih _ _ (by subst h; show min (min a _ * 10 + d) _ = min (a * 10 + d) _; omega)

theorem bankShift_eq (loc : Fin 3) : bankShift loc = 25 - 3 * loc.val := by fin_cases loc <;> rfl

theorem bankIndexShift_eq (loc : Fin 3) : bankIndexShift loc = 8 - 4 * loc.val := by fin_cases loc <;> rfl

/-- The width check of an operand with an index, at a valid position, on the magnitude. -/
theorem opndEnc_error_iff_wide {p : Params} {t : Token} {loc : Fin 3} {s : Nat} (hi : hasIndex p t = true) (hs : indexShift t loc = some s) :
    (opndEnc p t loc = .error .invalidOperandPosition ↔ magnitudeLimit t loc ≤ magnitude p t) := by
  have h1 : bankOf t ≠ none ∨ loc ≠ 2 := by
    by_contra hc
    push Not at hc
    rw [(indexShift_eq_none t loc).2 hc] at hs; cases hs
  rw [opndEnc_eq_error_iff]
  simp [OperandAccepted, hi, h1]

theorem contains_singleton (t : Bytes) (b : Byte) : contains t [b] = true ↔ b ∈ t := by
  rw [contains_iff_infix, List.singleton_infix_iff]

theorem contains_eq_false_iff (t p : Bytes) : contains t p = false ↔ ¬ p <:+: t := by
  rw [← contains_iff_infix, Bool.not_eq_true]

/-- The encoder treats the bank codes as opaque (43_operand_encoder.md R141): of two tokens that name banks and have the
same digits and markers, both are rejected or both are encoded, with the same index part beside their codes. -/
theorem opndEnc_bank_opaque (p : Params) (t u : Token) (loc : Fin 3) (b c : Bank) (hb : bankOf t = some b)
    (hc : bankOf u = some c) (hd : digits p t = digits p u) (hn : contains t (ascii "-") = contains u (ascii "-"))
    (ha : contains t (ascii "[A") = contains u (ascii "[A")) :
    (opndEnc p t loc = .error .invalidOperandPosition ∧ opndEnc p u loc = .error .invalidOperandPosition) ∨
    ∃ index : Nat,
      opndEnc p t loc = .ok (BitVec.ofNat 32 (b.code.toNat <<< bankShift loc ||| index)) ∧
      opndEnc p u loc = .ok (BitVec.ofNat 32 (c.code.toNat <<< bankShift loc ||| index)) := by
  have hi : hasIndex p u = hasIndex p t := by simp only [hasIndex, hd]
  have hv : indexValue p u = indexValue p t := by simp only [indexValue, magnitude, markDirect, markNegative, hd, hn, ha]
  simp only [opndEnc, indexShift, bankField, hb, hc, hi, hv]
  by_cases h : hasIndex p t = true
  · by_cases hw : indexValue p t <<< bankIndexShift loc ≥ 2 ^ 32
    · exact .inl ⟨by rw [if_pos h, if_pos hw], by rw [if_pos h, if_pos hw]⟩
    · exact .inr ⟨_, by rw [if_pos h, if_neg hw], by rw [if_pos h, if_neg hw]⟩
  · exact .inr ⟨0, by simp [h], by simp [h]⟩

end Sys2Proof.Machine
end

