-- ==== Sys2Proof/Laws/Assembler.lean ====
section
/-! SUPPORT. Lemmas about the Instruction Assembler: when it succeeds, and the bits of the word. -/

namespace Sys2Proof.Machine

open Sys2Proof

/-- The opcode and flag contributions, as a number. -/
def headBits (op : Op) (m : Token) : Nat := (op.code.toNat <<< 28) ||| ((if flagDec m then 1 else 0) <<< 15)

theorem headWord_eq (op : Op) (m : Token) : headWord op m = BitVec.ofNat 34 (headBits op m) := by
  unfold headWord headBits
  cases flagDec m <;> cases op <;> decide

theorem headBits_lt (op : Op) (m : Token) : headBits op m < 2 ^ 32 := by
  unfold headBits
  cases flagDec m <;> cases op <;> decide

theorem testBit_headBits (op : Op) (m : Token) (k : Nat) :
    (headBits op m).testBit k =
      ((decide (28 ≤ k) && op.code.toNat.testBit (k - 28)) || (decide (k = 15) && flagDec m)) := by
  have h : ((if flagDec m then 1 else 0) <<< 15 : Nat).testBit k = (decide (k = 15) && flagDec m) := by
    cases flagDec m
    · simp
    · simp only [if_true, Nat.shiftLeft_eq, one_mul, Nat.testBit_two_pow, Bool.and_true, eq_comm]
  rw [headBits, Nat.testBit_or, Nat.testBit_shiftLeft, h]

/-- OR the contributions of placed operands onto a number. -/
def foldBits (p : Params) (l : List (Token × Fin 3)) (w : Nat) : Nat :=
  l.foldl (fun w x => w ||| operandBits p x.1 x.2) w

theorem ruledWord_eq (p : Params) (op : Op) (m : Token) (ops : List Token) :
    ruledWord p op.code.toNat m ops = foldBits p (placeOperands ops) (headBits op m) := rfl

theorem testBit_foldBits (p : Params) (l : List (Token × Fin 3)) (w k : Nat) :
    (foldBits p l w).testBit k = (w.testBit k || l.any fun x => (operandBits p x.1 x.2).testBit k) := by
  induction l generalizing w with
  | nil => simp [foldBits]
  | cons x l ih =>
    have := ih (w ||| operandBits p x.1 x.2)
    rw [foldBits, List.foldl_cons] at *
    rw [this, Nat.testBit_or, List.any_cons, Bool.or_assoc]

theorem foldBits_lt {p : Params} {l : List (Token × Fin 3)} {w : Nat} (hw : w < 2 ^ 32)
    (h : ∀ x ∈ l, OperandAccepted p x.1 x.2) : foldBits p l w < 2 ^ 32 := by
  induction l generalizing w with
  | nil => exact hw
  | cons x l ih =>
    exact ih (Nat.or_lt_two_pow hw (operandBits_lt (h x (by simp)))) fun y hy => h y (by simp [hy])

/-- With every operand accepted, the OR of all contributions results (44_instruction_assembler.md R154). -/
theorem orOperands_of_accepted {p : Params} {l : List (Token × Fin 3)} (w : Nat)
    (h : ∀ x ∈ l, OperandAccepted p x.1 x.2) :
    orOperands p l (BitVec.ofNat 34 w) = .ok (BitVec.ofNat 34 (foldBits p l w)) := by
  induction l generalizing w with
  | nil => rfl
  | cons x l ih =>
    have hx := h x (by simp)
    have hc : BitVec.ofNat 34 w ||| (BitVec.ofNat 32 (operandBits p x.1 x.2)).setWidth 34
        = BitVec.ofNat 34 (w ||| operandBits p x.1 x.2) := by
      have hlt := operandBits_lt hx
      apply BitVec.eq_of_getLsbD_eq
      intro i hi
      by_cases h32 : i < 32
      · simp only [BitVec.getLsbD_or, BitVec.getLsbD_setWidth, BitVec.getLsbD_ofNat, Nat.testBit_or, hi, h32,
          decide_true, Bool.true_and]
      · have : (operandBits p x.1 x.2).testBit i = false :=
          Nat.testBit_lt_two_pow (lt_of_lt_of_le hlt (Nat.pow_le_pow_right (by omega) (by omega)))
        simp only [BitVec.getLsbD_or, BitVec.getLsbD_setWidth, BitVec.getLsbD_ofNat, Nat.testBit_or, hi, h32, this,
          decide_true, decide_false, Bool.true_and, Bool.false_and]
    rw [orOperands, opndEnc_of_accepted hx]
    simp only [hc]
    exact ih _ fun y hy => h y (by simp [hy])

/-- An operand that is not accepted ends the transaction (44_instruction_assembler.md R155). -/
theorem orOperands_of_not_accepted {p : Params} {l : List (Token × Fin 3)} (w : Word)
    (h : ∃ x ∈ l, ¬ OperandAccepted p x.1 x.2) : orOperands p l w = .error .invalidOperandPosition := by
  induction l generalizing w with
  | nil => simp at h
  | cons x l ih =>
    by_cases hx : OperandAccepted p x.1 x.2
    · rw [orOperands, opndEnc_of_accepted hx]
      refine ih _ ?_
      obtain ⟨y, hy, hn⟩ := h
      rcases List.mem_cons.1 hy with rfl | hy
      exacts [absurd hx hn, ⟨y, hy, hn⟩]
    · rw [orOperands, opndEnc_of_not_accepted hx]

theorem assemble_of_accepted {p : Params} (op : Op) (m : Token) {ops : List Token} (h : OperandsAccepted p ops) :
    assemble p op m ops = .ok (BitVec.ofNat 34 (ruledWord p op.code.toNat m ops)) := by
  rw [assemble, headWord_eq, orOperands_of_accepted _ h, ruledWord_eq]

theorem assemble_of_not_accepted {p : Params} (op : Op) (m : Token) {ops : List Token}
    (h : ¬ OperandsAccepted p ops) : assemble p op m ops = .error .invalidOperandPosition := by
  refine orOperands_of_not_accepted _ ?_
  by_contra hc
  exact h fun x hx => by_contra fun hn => hc ⟨x, hx, hn⟩

theorem assemble_eq_ok_iff {p : Params} {op : Op} {m : Token} {ops : List Token} {w : Word} :
    assemble p op m ops = .ok w ↔
      OperandsAccepted p ops ∧ w = BitVec.ofNat 34 (ruledWord p op.code.toNat m ops) := by
  by_cases h : OperandsAccepted p ops
  · simp [assemble_of_accepted op m h, h, eq_comm]
  · simp [assemble_of_not_accepted op m h, h]

theorem assemble_eq_error_iff {p : Params} {op : Op} {m : Token} {ops : List Token} {e : EncodeError} :
    assemble p op m ops = .error e ↔ ¬ OperandsAccepted p ops ∧ e = .invalidOperandPosition := by
  by_cases h : OperandsAccepted p ops
  · simp [assemble_of_accepted op m h, h]
  · simp [assemble_of_not_accepted op m h, h, eq_comm]

/-- Everything ASM does when it succeeds. -/
theorem asm_eq_ok_iff {p : Params} {m : Token} {ops : List Token} {w : Word} :
    asm p (m :: ops) = .ok w ↔
      ∃ op, opcLookup m = some op ∧ OperandsAccepted p ops ∧
        w = BitVec.ofNat 34 (ruledWord p op.code.toNat m ops) := by
  rw [asm]
  rcases opcLookup m with _ | op
  · simp
  · simp [assemble_eq_ok_iff]

theorem ruledWord_lt {p : Params} (op : Op) (m : Token) {ops : List Token} (h : OperandsAccepted p ops) :
    ruledWord p op.code.toNat m ops < 2 ^ 32 := by
  rw [ruledWord_eq]
  exact foldBits_lt (headBits_lt op m) h

/-- The bits of an assembled word: the opcode's, the flag, and every encoded operand's (30_encoding.md R64). -/
theorem getLsbD_ruledWord {p : Params} (op : Op) (m : Token) {ops : List Token} (h : OperandsAccepted p ops)
    (k : Nat) :
    (BitVec.ofNat 34 (ruledWord p op.code.toNat m ops)).getLsbD k =
      ((decide (28 ≤ k) && op.code.toNat.testBit (k - 28)) || (decide (k = 15) && flagDec m)
        || (placeOperands ops).any fun x => (operandBits p x.1 x.2).testBit k) := by
  rw [BitVec.getLsbD_ofNat, ← testBit_headBits, ← testBit_foldBits, ← ruledWord_eq]
  by_cases hk : k < 34
  · simp [hk]
  · have : (ruledWord p op.code.toNat m ops).testBit k = false :=
      Nat.testBit_lt_two_pow (lt_of_lt_of_le (ruledWord_lt op m h) (Nat.pow_le_pow_right (by omega) (by omega)))
    simp [this]

theorem placeOperands_take (ops : List Token) : placeOperands ops = placeOperands (ops.take 3) := by
  rcases ops with _ | ⟨a, _ | ⟨b, _ | ⟨c, rest⟩⟩⟩ <;> simp [placeOperands, operandPositions]

/-- Which operand stands at which position (44_instruction_assembler.md R153). -/
theorem mem_placeOperands {ops : List Token} {t : Token} {loc : Fin 3} :
    (t, loc) ∈ placeOperands ops ↔ ops[loc.val]? = some t := by
  rcases ops with _ | ⟨a, _ | ⟨b, _ | ⟨c, rest⟩⟩⟩ <;> fin_cases loc <;>
    simp [placeOperands, operandPositions, eq_comm]

/-- The word does not depend on WORD_BYTE_ORDER (20_memory.md R41). -/
theorem orOperands_wordByteOrder (p : Params) (order : Option ByteOrder) (placed : List (Token × Fin 3)) (w : Word) :
    orOperands { p with wordByteOrder := order } placed w = orOperands p placed w := by
  induction placed generalizing w with
  | nil => rfl
  | cons x rest ih =>
    obtain ⟨t, loc⟩ := x
    simp only [orOperands, show opndEnc { p with wordByteOrder := order } t loc = opndEnc p t loc from rfl]
    cases opndEnc p t loc with
    | error e => rfl
    | ok f => exact ih _

@[simp] theorem assemble_wordByteOrder (p : Params) (order : Option ByteOrder) :
    assemble { p with wordByteOrder := order } = assemble p := by
  funext op m ops
  exact orOperands_wordByteOrder p order _ _

end Sys2Proof.Machine
end

