-- ==== Sys2Proof/Laws/State.lean ====
section
/-! SUPPORT. One lemma for each field of the state under each update, so that no proof unfolds a record update. -/

namespace Sys2Proof.Machine.State

open Sys2Proof Sys2Proof.Machine

@[simp] theorem releaseStreams_params (s : State) : s.releaseStreams.params = s.params := rfl
@[simp] theorem releaseStreams_phase (s : State) : s.releaseStreams.phase = s.phase := rfl
@[simp] theorem releaseStreams_idx (s : State) : s.releaseStreams.idx = s.idx := rfl
@[simp] theorem releaseStreams_source (s : State) : s.releaseStreams.source = ⟨s.source.handle.release, s.source.unread⟩ := rfl
@[simp] theorem releaseStreams_sink (s : State) : s.releaseStreams.sink = ⟨s.sink.handle.release, s.sink.failing, s.sink.records⟩ := rfl
@[simp] theorem releaseStreams_ports (s : State) : s.releaseStreams.ports = s.ports := rfl

@[simp] theorem handOver_params (input : Bytes) (a b : Bool) (s : State) : (s.handOver input a b).params = s.params := rfl
@[simp] theorem handOver_phase (input : Bytes) (a b : Bool) (s : State) : (s.handOver input a b).phase = .start := rfl
@[simp] theorem handOver_idx (input : Bytes) (a b : Bool) (s : State) : (s.handOver input a b).idx = s.idx := rfl
@[simp] theorem handOver_source (input : Bytes) (a b : Bool) (s : State) : (s.handOver input a b).source = ⟨if a then .held else .notOpened, input⟩ := rfl
@[simp] theorem handOver_sink (input : Bytes) (a b : Bool) (s : State) : (s.handOver input a b).sink = ⟨if b then .held else .notOpened, false, []⟩ := rfl
@[simp] theorem handOver_ports (input : Bytes) (a b : Bool) (s : State) : (s.handOver input a b).ports = s.ports := rfl

@[simp] theorem consumeTo_params (after : Bytes) (s : State) : (s.consumeTo after).params = s.params := rfl
@[simp] theorem consumeTo_phase (after : Bytes) (s : State) : (s.consumeTo after).phase = s.phase := rfl
@[simp] theorem consumeTo_idx (after : Bytes) (s : State) : (s.consumeTo after).idx = s.idx := rfl
@[simp] theorem consumeTo_source (after : Bytes) (s : State) : (s.consumeTo after).source = ⟨s.source.handle, after⟩ := rfl
@[simp] theorem consumeTo_sink (after : Bytes) (s : State) : (s.consumeTo after).sink = s.sink := rfl
@[simp] theorem consumeTo_ports (after : Bytes) (s : State) : (s.consumeTo after).ports = s.ports := rfl

@[simp] theorem afterRecord_params (r : Record) (q : Ports) (s : State) : (s.afterRecord r q).params = s.params := rfl
@[simp] theorem afterRecord_phase (r : Record) (q : Ports) (s : State) : (s.afterRecord r q).phase = s.phase := rfl
@[simp] theorem afterRecord_idx (r : Record) (q : Ports) (s : State) : (s.afterRecord r q).idx = s.idx + 1 := rfl
@[simp] theorem afterRecord_source (r : Record) (q : Ports) (s : State) : (s.afterRecord r q).source = s.source := rfl
@[simp] theorem afterRecord_sink (r : Record) (q : Ports) (s : State) : (s.afterRecord r q).sink = ⟨s.sink.handle, s.sink.failing, s.sink.records ++ [r]⟩ := rfl
@[simp] theorem afterRecord_ports (r : Record) (q : Ports) (s : State) : (s.afterRecord r q).ports = some q := rfl

@[simp] theorem presentLine_params (line : Bytes) (s : State) : (s.presentLine line).params = s.params := rfl
@[simp] theorem presentLine_phase (line : Bytes) (s : State) : (s.presentLine line).phase = .running := rfl
@[simp] theorem presentLine_idx (line : Bytes) (s : State) : (s.presentLine line).idx = s.idx := rfl
@[simp] theorem presentLine_source (line : Bytes) (s : State) : (s.presentLine line).source = ⟨.held, line ++ cr :: lf :: s.source.unread⟩ := rfl
@[simp] theorem presentLine_sink (line : Bytes) (s : State) : (s.presentLine line).sink = ⟨.held, s.sink.failing, s.sink.records⟩ := rfl
@[simp] theorem presentLine_ports (line : Bytes) (s : State) : (s.presentLine line).ports = s.ports := rfl

@[simp] theorem reset_params : reset.params = defaultParams := rfl
@[simp] theorem reset_phase : reset.phase = .start := rfl
@[simp] theorem reset_idx : reset.idx = 0 := rfl
@[simp] theorem reset_source : reset.source = ⟨.held, []⟩ := rfl
@[simp] theorem reset_sink : reset.sink = ⟨.held, false, []⟩ := rfl
@[simp] theorem reset_ports : reset.ports = none := rfl

end Sys2Proof.Machine.State
end

