-- ==== Sys2Proof/Laws/Ops.lean ====
section
/-! SUPPORT. Once for each shared operation: everything it can do. Then what an instruction and a step can do. -/

namespace Sys2Proof.Machine

open Sys2Proof

/-! ### Decoding -/

@[simp] theorem ofOp_op (op : Op) (src : SourceLine) : (Instr.ofOp op src).op = op := by cases op <;> rfl

@[simp] theorem ofOp_src (op : Op) (src : SourceLine) : (Instr.ofOp op src).src = src := by cases op <;> rfl

@[simp] theorem ofOp_op_src (i : Instr) : Instr.ofOp i.op i.src = i := by cases i <;> rfl

theorem decodeOp_opcodeContribution (op : Op) : decodeOp (opcodeContribution op.code) = some op := by
  cases op <;> decide

/-- Everything a successful decoding says: the line is cut into the instruction's tokens, losslessly, and the mnemonic
selects the operation. -/
theorem decode_eq_ok_iff {p : Params} {line : Bytes} {i : Instr} :
    decode p line = .ok i ↔
      splitLine p.wsSet line = (i.src.mnemonic :: i.src.operands, i.src.trail)
        ∧ opcLookup i.src.mnemonic.tok = some i.op := by
  unfold decode
  rcases h : splitLine p.wsSet line with ⟨_ | ⟨m, ops⟩, trail⟩
  · simp
  · rcases hm : opcLookup m.tok with _ | op
    · simp only [hm, reduceCtorEq, Prod.mk.injEq, List.cons.injEq, false_iff, not_and]
      rintro ⟨⟨rfl, -⟩, -⟩
      simp [hm]
    · simp only [hm, Except.ok.injEq, Prod.mk.injEq, List.cons.injEq]
      constructor
      · rintro rfl
        simp [hm]
      · rintro ⟨⟨⟨h1, h2⟩, h3⟩, h4⟩
        rw [← h1, hm, Option.some.injEq] at h4
        rw [← ofOp_op_src i, ← h4]
        congr 1
        rcases hs : i.src with ⟨a, b, c⟩
        simp_all

theorem text_eq_joinLexemes (src : SourceLine) :
    src.text = joinLexemes (src.mnemonic :: src.operands, src.trail) := by
  simp [SourceLine.text, joinLexemes]

/-- A decoded line is the text of its instruction, byte for byte. -/
theorem text_of_decode {p : Params} {line : Bytes} {i : Instr} (h : decode p line = .ok i) : i.src.text = line := by
  rw [decode_eq_ok_iff] at h
  rw [text_eq_joinLexemes, ← h.1, joinLexemes_splitLine]

theorem tokens_of_decode {p : Params} {line : Bytes} {i : Instr} (h : decode p line = .ok i) :
    i.src.tokens = tokens p line := by
  rw [decode_eq_ok_iff] at h
  simp [tokens, h.1, SourceLine.tokens, SourceLine.operandTokens]

/-- A line is decoded exactly when the Opcode Table hits its first token. -/
theorem asm_of_decode {p : Params} {line : Bytes} {i : Instr} (h : decode p line = .ok i) :
    asm p (tokens p line) = assemble p i.op i.src.mnemonic.tok i.src.operandTokens := by
  rw [← tokens_of_decode h, SourceLine.tokens, asm, (decode_eq_ok_iff.1 h).2]

theorem asm_of_decode_error {p : Params} {line : Bytes} {e : DecodeError} (h : decode p line = .error e) :
    asm p (tokens p line) = .error .unknownOperation := by
  unfold decode at h
  rcases hc : splitLine p.wsSet line with ⟨_ | ⟨m, ops⟩, trail⟩
  · simp [tokens, hc, asm]
  · rcases hm : opcLookup m.tok with _ | op
    · simp [tokens, hc, asm, hm]
    · simp [hc, hm] at h

/-- The checks of a well-formed instruction's line are those of a cut line. -/
theorem goodCut_iff (p : Params) (src : SourceLine) :
    GoodCut p.wsSet (src.mnemonic :: src.operands, src.trail) ↔
      src.separatorsOk p = true ∧ src.tokensOk p = true := by
  simp only [GoodCut, GoodLexeme, SourceLine.separatorsOk, SourceLine.tokensOk, SourceLine.tokens,
    SourceLine.operandTokens, List.all_cons, List.all_map, Bool.and_eq_true, List.all_eq_true, List.tail_cons,
    Bool.not_eq_true', List.isEmpty_eq_false_iff, List.mem_cons, forall_eq_or_imp, Function.comp_apply, ne_eq]
  constructor
  · rintro ⟨⟨⟨a1, a2, a3⟩, b⟩, c, d⟩
    exact ⟨⟨⟨a3, fun x hx => ⟨c x hx, (b x hx).2.2⟩⟩, d⟩, ⟨a1, a2⟩, fun x hx => ⟨(b x hx).1, (b x hx).2.1⟩⟩
  · rintro ⟨⟨⟨a3, c⟩, d⟩, ⟨a1, a2⟩, b⟩
    exact ⟨⟨⟨a1, a2, a3⟩, fun x hx => ⟨(b x hx).1, (b x hx).2, (c x hx).2⟩⟩, fun x hx => (c x hx).1, d⟩

/-! ### Operations -/

/-- Everything `emitRecord` can do. -/
theorem emitRecord_cases (r : Record) (q : Ports) (s : State) :
    (s.sink.failing = true ∧ emitRecord r q s = .fault .outputFailure) ∨
      (s.sink.failing = false ∧ emitRecord r q s = .next (s.afterRecord r q)) := by
  rcases h : s.sink.failing with _ | _ <;> simp [emitRecord, h]

/-- The record and the ports of an instruction at a state. -/
def instrResult (s : State) (i : Instr) : Except EncodeError Word :=
  assemble s.params i.op i.src.mnemonic.tok i.src.operandTokens

/-- Everything `translate` can do: the record and the ports of the assembled result, or the output failure. -/
theorem translate_eq (op : Op) (src : SourceLine) (s : State) :
    translate op src s =
      emitRecord ⟨s.idx, recordResult s.params src.text (assemble s.params op src.mnemonic.tok src.operandTokens),
          src.text⟩
        (portsOf src.tokens (assemble s.params op src.mnemonic.tok src.operandTokens)) s := by
  unfold translate
  rcases assemble s.params op src.mnemonic.tok src.operandTokens with e | w <;> rfl

/-- Every instruction's meaning is the transaction of its own operation. -/
theorem exec_eq_translate (i : Instr) (s : State) : exec i s = translate i.op i.src s := by cases i <;> rfl

/-- Everything an instruction can do. -/
theorem exec_eq (i : Instr) (s : State) :
    exec i s =
      emitRecord ⟨s.idx, recordResult s.params i.src.text (instrResult s i), i.src.text⟩
        (portsOf i.src.tokens (instrResult s i)) s := by
  rw [exec_eq_translate, translate_eq]
  rfl

/-- An instruction that answers a next state has emitted its record. -/
theorem exec_next {i : Instr} {s t : State} (h : exec i s = .next t) :
    s.sink.failing = false ∧
      t = s.afterRecord ⟨s.idx, recordResult s.params i.src.text (instrResult s i), i.src.text⟩
        (portsOf i.src.tokens (instrResult s i)) := by
  rw [exec_eq] at h
  rcases emitRecord_cases _ _ s with ⟨_, e⟩ | ⟨hf, e⟩
  · rw [e] at h; cases h
  · rw [e] at h
    cases h
    exact ⟨hf, rfl⟩

/-- Within the bounds, one turn of the loop emits the line's record: decoding and dispatching give what the complete
transaction of the line's tokens gives. -/
theorem translateLine_exec {line : Bytes} {s : State} (hl : lineFits s.params line = true)
    (hi : indexFits s.params s.idx = true) :
    translateLine exec line s =
      emitRecord (lineRecord s.params s.idx line) (encoderPorts s.params (tokens s.params line)) s := by
  unfold translateLine
  simp only [hl, hi, Bool.not_true, Bool.false_eq_true, if_false]
  rcases hd : decode s.params line with e | i
  · simp only [takeError, lineRecord, encoderPorts, asm_of_decode_error hd, recordResult, portsOf]
  · simp only [exec_eq, instrResult, lineRecord, encoderPorts, asm_of_decode hd, text_of_decode hd,
      tokens_of_decode hd]

/-! ### Steps -/

theorem step_start {s : State} (h : s.phase = .start) : step s = startRun s := by simp [step, stepWith, h]

theorem step_running {s : State} (h : s.phase = .running) : step s = loopTurn exec s := by simp [step, stepWith, h]

theorem step_finished {s : State} (h : s.phase = .finished) : step s = .fault .runOver := by simp [step, stepWith, h]

theorem step_aborted {s : State} (h : s.phase = .aborted) : step s = .fault .runAborted := by simp [step, stepWith, h]

theorem step_eof {s : State} (h : s.phase = .running) (hr : readLine s.source.unread = none) :
    step s = finishRun s := by simp [step_running h, loopTurn, hr]

theorem step_line {s : State} {line after : Bytes} (h : s.phase = .running)
    (hr : readLine s.source.unread = some (line, after)) :
    step s = translateLine exec line (s.consumeTo after) := by simp [step_running h, loopTurn, hr]

/-- Everything a step that answers a next state has done: started a run, aborted it, emitted a line's record, or
returned at EOF. -/
theorem step_next_cases {s t : State} (h : step s = .next t) :
    (s.phase = .start ∧ s.source.handle = .held ∧ s.sink.handle = .held ∧
      t = { s with phase := .running, idx := 0, sink := ⟨s.sink.handle, s.sink.failing, []⟩, ports := none }) ∨
    (s.phase = .start ∧ ¬ (s.source.handle = .held ∧ s.sink.handle = .held) ∧
      t = { s with
        phase := .aborted
        source := ⟨s.source.handle.release, s.source.unread⟩
        sink := ⟨s.sink.handle.release, s.sink.failing, []⟩
        ports := none }) ∨
    (s.phase = .running ∧ s.sink.failing = false ∧ ∃ line after, readLine s.source.unread = some (line, after) ∧
      lineFits s.params line = true ∧ indexFits s.params s.idx = true ∧
      t = (s.consumeTo after).afterRecord (lineRecord s.params s.idx line)
        (encoderPorts s.params (tokens s.params line))) ∨
    (s.phase = .running ∧ readLine s.source.unread = none ∧
      t = { s.releaseStreams with phase := .finished, ports := none }) := by
  rcases hp : s.phase with _ | _ | _ | _
  · rw [step_start hp, startRun] at h
    split at h <;> cases h
    · rename_i hh
      exact .inl ⟨rfl, hh.1, hh.2, rfl⟩
    · rename_i hh
      exact .inr (.inl ⟨rfl, hh, rfl⟩)
  · rcases hr : readLine s.source.unread with _ | ⟨line, after⟩
    · rw [step_eof hp hr, finishRun] at h
      cases h
      exact .inr (.inr (.inr ⟨rfl, rfl, rfl⟩))
    · rw [step_line hp hr] at h
      rcases hl : lineFits s.params line with _ | _
      · simp [translateLine, hl] at h
      · rcases hi : indexFits s.params s.idx with _ | _
        · simp [translateLine, hl, hi] at h
        · rw [translateLine_exec (by simpa using hl) (by simpa using hi)] at h
          rcases emitRecord_cases (lineRecord s.params s.idx line) (encoderPorts s.params (tokens s.params line))
            (s.consumeTo after) with ⟨_, e⟩ | ⟨hf, e⟩
          · simp only [State.consumeTo_params, State.consumeTo_idx, e] at h
            cases h
          · simp only [State.consumeTo_params, State.consumeTo_idx, e] at h
            cases h
            exact .inr (.inr (.inl ⟨rfl, by simpa using hf, line, after, rfl, hl, rfl, rfl⟩))
  · rw [step_finished hp] at h; cases h
  · rw [step_aborted hp] at h; cases h

/-- A line within the bounds, read from a running run with a sound output stream, is translated. -/
theorem step_emits {s : State} {line after : Bytes} (h : s.phase = .running)
    (hr : readLine s.source.unread = some (line, after)) (hl : lineFits s.params line = true)
    (hi : indexFits s.params s.idx = true) (hf : s.sink.failing = false) :
    step s = .next ((s.consumeTo after).afterRecord (lineRecord s.params s.idx line)
      (encoderPorts s.params (tokens s.params line))) := by
  rw [step_line h hr, translateLine_exec (by simpa using hl) (by simpa using hi)]
  simp [emitRecord, hf]

theorem step_start_held {s : State} (h : s.phase = .start) (h1 : s.source.handle = .held)
    (h2 : s.sink.handle = .held) :
    step s = .next { s with
      phase := .running, idx := 0, sink := ⟨s.sink.handle, s.sink.failing, []⟩, ports := none } := by
  rw [step_start h, startRun, if_pos ⟨h1, h2⟩]

theorem step_start_not_held {s : State} (h : s.phase = .start)
    (hn : ¬ (s.source.handle = .held ∧ s.sink.handle = .held)) :
    step s = .next { s with
      phase := .aborted
      source := ⟨s.source.handle.release, s.source.unread⟩
      sink := ⟨s.sink.handle.release, s.sink.failing, []⟩
      ports := none } := by
  rw [step_start h, startRun, if_neg hn]

theorem core_run_succ_of_next (M : Host.Core) {s t : M.State} (k : Nat) (h : M.step s = .next t) :
    M.run (k + 1) s = M.run k t := by simp [Host.Core.run, h]

/-- A run whose first step answers a next state goes on from it. -/
theorem run_succ_of_next {s t : State} (k : Nat) (h : step s = .next t) : core.run (k + 1) s = core.run k t :=
  core_run_succ_of_next core k h

theorem opcLookup_eq_none_iff (m : Token) : opcLookup m = none ↔ ∀ x ∈ opcTable, contains m x.1 = false :=
  firstMatch_eq_none _ _

@[simp] theorem release_ne_held (h : Handle) : h.release ≠ .held := by cases h <;> simp [Handle.release]

@[simp] theorem lineRecord_line (p : Params) (k : Nat) (line : Bytes) : (lineRecord p k line).line = line := rfl

@[simp] theorem lineRecord_idx (p : Params) (k : Nat) (line : Bytes) : (lineRecord p k line).idx = k := rfl

/-- Appending the next record keeps the records right. -/
theorem recordsRight_append {p : Params} {rs : List Record} (h : RecordsRight p rs) (line : Bytes) :
    RecordsRight p (rs ++ [lineRecord p rs.length line]) := by
  intro k r hk
  by_cases hlt : k < rs.length
  · rw [List.getElem?_append_left hlt] at hk
    exact h k r hk
  · rw [List.getElem?_append_right (by omega)] at hk
    rcases hj : k - rs.length with _ | j
    · rw [hj] at hk
      have hr : r = lineRecord p rs.length line := by simpa using hk.symm
      have hk' : k = rs.length := by omega
      subst hr hk'
      rfl
    · rw [hj] at hk
      simp at hk

end Sys2Proof.Machine
end

