-- ==== Sys2Proof/Laws/Lanes.lean ====
section
/-! SUPPORT. Lemmas about the machine with parallel lanes: what every event keeps. -/

namespace Sys2Proof.Machine

open Sys2Proof

/-- What every event of a run over `input` keeps: the unread bytes hold the lines from the next index on; every job and
every held record belongs to its own line; the emitted records are the first ones of the sequential run; and each index
handed out is emitted, at work, or held. -/
structure LaneMachine.Good (input : Bytes) (m : LaneMachine) : Prop where
  unread : streamLines m.unread = (streamLines input).drop m.nextIdx
  next_le : m.nextIdx ≤ (streamLines input).length
  busy : ∀ j ∈ m.busy, (streamLines input)[j.idx]? = some j.line
  held : ∀ r ∈ m.held, r = lineRecord m.params r.idx r.line ∧ (streamLines input)[r.idx]? = some r.line
  emitted : m.emitted = (sequentialRecords m.params input).take m.emitted.length
  pending : ∀ k, m.emitted.length ≤ k → k < m.nextIdx → (∃ j ∈ m.busy, j.idx = k) ∨ ∃ r ∈ m.held, r.idx = k
  count : m.nextIdx = m.emitted.length + m.busy.length + m.held.length

theorem sequentialRecords_getElem? (p : Params) (input : Bytes) (k : Nat) :
    (sequentialRecords p input)[k]? = ((streamLines input)[k]?).map fun line => lineRecord p k line := by
  simp [sequentialRecords]

theorem length_sequentialRecords (p : Params) (input : Bytes) :
    (sequentialRecords p input).length = (streamLines input).length := by
  simp [sequentialRecords]

theorem LaneMachine.good_init (p : Params) (input : Bytes) : (LaneMachine.init p input).Good input where
  unread := by simp [LaneMachine.init]
  next_le := by simp [LaneMachine.init]
  busy := by simp [LaneMachine.init]
  held := by simp [LaneMachine.init]
  emitted := by simp [LaneMachine.init]
  pending := by simp [LaneMachine.init]
  count := by simp [LaneMachine.init]

theorem LaneMachine.apply_params (lanes : Nat) (m : LaneMachine) (e : LaneEvent) :
    (m.apply lanes e).params = m.params := by
  cases e <;> simp only [LaneMachine.apply] <;> split <;> (try split) <;> rfl

/-- What `take` does when a lane is idle and a line is left. -/
theorem LaneMachine.good_take {input : Bytes} {m : LaneMachine} (h : m.Good input) {line after : Bytes}
    (hr : readLine m.unread = some (line, after)) :
    LaneMachine.Good input
      { m with unread := after, nextIdx := m.nextIdx + 1, busy := m.busy ++ [⟨m.nextIdx, line⟩] } := by
  have hl := streamLines_of_readLine hr
  rw [h.unread] at hl
  have hget : (streamLines input)[m.nextIdx]? = some line := by
    have := congrArg (·[0]?) hl
    simpa using this
  have hlt : m.nextIdx < (streamLines input).length := (List.getElem?_eq_some_iff.1 hget).1
  refine ⟨?_, hlt, ?_, h.held, h.emitted, ?_, ?_⟩
  · have := congrArg List.tail hl
    simpa [List.tail_drop] using this.symm
  · intro j hj
    rcases List.mem_append.1 hj with hj | hj
    · exact h.busy j hj
    · rw [List.mem_singleton.1 hj]
      exact hget
  · intro k h1 h2
    by_cases hk : k < m.nextIdx
    · rcases h.pending k h1 hk with ⟨j, hj, e⟩ | hh
      · exact .inl ⟨j, List.mem_append_left _ hj, e⟩
      · exact .inr hh
    · exact .inl ⟨⟨m.nextIdx, line⟩, by simp, show m.nextIdx = k by simp only at h2; omega⟩
  · have := h.count
    simp only [List.length_append, List.length_singleton]
    omega

/-- What `finish` does on a lane at work. -/
theorem LaneMachine.good_finish {input : Bytes} {m : LaneMachine} (h : m.Good input) {k : Nat} {j : Job}
    (hj : m.busy[k]? = some j) :
    LaneMachine.Good input
      { m with busy := m.busy.eraseIdx k, held := m.held ++ [lineRecord m.params j.idx j.line] } := by
  obtain ⟨hk, hjk⟩ := List.getElem?_eq_some_iff.1 hj
  refine ⟨h.unread, h.next_le, fun x hx => h.busy x (List.mem_of_mem_eraseIdx hx), ?_, h.emitted, ?_, ?_⟩
  · intro r hr
    rcases List.mem_append.1 hr with hr | hr
    · exact h.held r hr
    · rw [List.mem_singleton.1 hr]
      exact ⟨rfl, h.busy j (List.mem_of_getElem? hj)⟩
  · intro i h1 h2
    rcases h.pending i h1 h2 with ⟨x, hx, e⟩ | ⟨r, hr, e⟩
    · obtain ⟨n, hn, hxn⟩ := List.mem_iff_getElem.1 hx
      by_cases hnk : n = k
      · subst hnk
        refine .inr ⟨lineRecord m.params j.idx j.line, by simp, ?_⟩
        rw [← hjk, hxn]
        exact e
      · refine .inl ⟨x, ?_, e⟩
        rw [List.mem_eraseIdx_iff_getElem]
        exact ⟨n, hn, hnk, hxn⟩
    · exact .inr ⟨r, List.mem_append_left _ hr, e⟩
  · have := h.count
    have hlen := List.length_eraseIdx_of_lt hk
    simp only [List.length_append, List.length_singleton, hlen]
    omega

/-- What `emit` does when the record with the next index is held. -/
theorem LaneMachine.good_emit {input : Bytes} {m : LaneMachine} (h : m.Good input) {r : Record} (hr : r ∈ m.held)
    (hi : r.idx = m.emitted.length) :
    LaneMachine.Good input { m with held := m.held.erase r, emitted := m.emitted ++ [r] } := by
  have hrec := h.held r hr
  have hseq : (sequentialRecords m.params input)[m.emitted.length]? = some r := by
    rw [sequentialRecords_getElem?, ← hi, hrec.2]
    simpa using hrec.1.symm
  refine ⟨h.unread, h.next_le, h.busy, fun x hx => h.held x (List.mem_of_mem_erase hx), ?_, ?_, ?_⟩
  · obtain ⟨hlt, hget⟩ := List.getElem?_eq_some_iff.1 hseq
    simp only [List.length_append, List.length_singleton]
    rw [List.take_add_one, ← h.emitted, hseq]
    rfl
  · intro k h1 h2
    simp only [List.length_append, List.length_singleton] at h1
    rcases h.pending k (by omega) h2 with hb | ⟨x, hx, e⟩
    · exact .inl hb
    · refine .inr ⟨x, ?_, e⟩
      refine (List.mem_erase_of_ne ?_).2 hx
      rintro rfl
      omega
  · have hlen := List.length_erase_of_mem hr
    have hpos := List.length_pos_of_mem hr
    have := h.count
    simp only [List.length_append, List.length_singleton, hlen]
    omega

theorem LaneMachine.good_apply {input : Bytes} {m : LaneMachine} (lanes : Nat) (h : m.Good input) (e : LaneEvent) :
    (m.apply lanes e).Good input := by
  cases e with
  | take =>
    rw [LaneMachine.apply]
    split
    · rcases hr : readLine m.unread with _ | ⟨line, after⟩
      · exact h
      · exact LaneMachine.good_take h hr
    · exact h
  | finish k =>
    rw [LaneMachine.apply]
    rcases hj : m.busy[k]? with _ | j
    · exact h
    · exact LaneMachine.good_finish h hj
  | emit =>
    rw [LaneMachine.apply]
    split
    · exact h
    · rename_i r hf
      exact LaneMachine.good_emit h (List.mem_of_find?_eq_some hf) (by simpa using List.find?_some hf)

theorem LaneMachine.good_runSchedule {input : Bytes} {m : LaneMachine} (lanes : Nat) (h : m.Good input)
    (schedule : List LaneEvent) : (m.runSchedule lanes schedule).Good input := by
  induction schedule generalizing m with
  | nil => exact h
  | cons e schedule ih => exact ih (LaneMachine.good_apply lanes h e)

theorem LaneMachine.runSchedule_params (lanes : Nat) (m : LaneMachine) (schedule : List LaneEvent) :
    (m.runSchedule lanes schedule).params = m.params := by
  induction schedule generalizing m with
  | nil => rfl
  | cons e schedule ih => exact (ih _).trans (LaneMachine.apply_params lanes m e)

theorem LaneMachine.runSchedule_append (lanes : Nat) (m : LaneMachine) (a b : List LaneEvent) :
    m.runSchedule lanes (a ++ b) = (m.runSchedule lanes a).runSchedule lanes b := by
  simp [LaneMachine.runSchedule]

/-- All lanes at work can finish. -/
theorem finish_all (lanes : Nat) (n : Nat) : ∀ m : LaneMachine, m.busy.length = n →
    ∃ more, (m.runSchedule lanes more).busy = [] ∧ (m.runSchedule lanes more).unread = m.unread := by
  induction n with
  | zero => intro m h; exact ⟨[], List.length_eq_zero_iff.1 h, rfl⟩
  | succ n ih =>
    intro m h
    rcases hb : m.busy with _ | ⟨j, js⟩
    · simp [hb] at h
    · have happ : m.apply lanes (.finish 0) = { m with busy := js, held := m.held ++ [lineRecord m.params j.idx j.line] } := by
        simp [LaneMachine.apply, hb]
      obtain ⟨more, h1, h2⟩ := ih (m.apply lanes (.finish 0)) (by rw [happ]; simpa [hb] using h)
      refine ⟨.finish 0 :: more, h1, h2.trans (by rw [happ])⟩

/-- With no lane at work, all held records can be emitted. -/
theorem emit_all (lanes : Nat) (input : Bytes) (n : Nat) : ∀ m : LaneMachine, m.Good input → m.busy = [] → m.held.length = n →
    ∃ more, (m.runSchedule lanes more).busy = [] ∧ (m.runSchedule lanes more).held = [] ∧ (m.runSchedule lanes more).unread = m.unread := by
  induction n with
  | zero => intro m _ hb h; exact ⟨[], hb, List.length_eq_zero_iff.1 h, rfl⟩
  | succ n ih =>
    intro m hg hb h
    have hc := hg.count
    rw [hb, h] at hc
    simp at hc
    rcases hg.pending m.emitted.length (le_refl _) (by omega) with ⟨j, hj, _⟩ | ⟨r, hr, hi⟩
    · simp [hb] at hj
    · have hf : (m.held.find? fun r => r.idx == m.emitted.length).isSome := by
        rw [List.find?_isSome]; exact ⟨r, hr, by simpa using hi⟩
      obtain ⟨r', hr'⟩ := Option.isSome_iff_exists.1 hf
      have happ : m.apply lanes .emit = { m with held := m.held.erase r', emitted := m.emitted ++ [r'] } := by
        simp [LaneMachine.apply, hr']
      have hmem := List.mem_of_find?_eq_some hr'
      obtain ⟨more, h1, h2, h3⟩ := ih (m.apply lanes .emit) (LaneMachine.good_apply lanes hg .emit) (by rw [happ]; exact hb)
        (by rw [happ]; simp only [List.length_erase_of_mem hmem]; omega)
      exact ⟨.emit :: more, h1, h2, h3.trans (by rw [happ])⟩

end Sys2Proof.Machine
end

