-- ==== Sys2Proof/Laws/PerInstr.lean ====
section
/-! SUPPORT. A law of every instruction as syntax: an instruction is its operation and its line, its encoding is the
line's text, and its operation's row of the opcode map is found again in the opcode contribution. -/

namespace Sys2Proof.Laws.OpAndLine

open Sys2Proof

/-- An instruction is rebuilt from its operation and its line, encodes to the line's text, and its opcode decodes to
its operation. -/
def Statement (i : Instr) : Prop :=
  Instr.ofOp i.op i.src = i ∧ encode i = i.src.text ∧ decodeOp (opcodeContribution i.op.code) = some i.op

theorem nop (src : SourceLine) : Statement (.nop src) := ⟨rfl, rfl, Machine.decodeOp_opcodeContribution .nop⟩
theorem jump (src : SourceLine) : Statement (.jump src) := ⟨rfl, rfl, Machine.decodeOp_opcodeContribution .jump⟩
theorem exit (src : SourceLine) : Statement (.exit src) := ⟨rfl, rfl, Machine.decodeOp_opcodeContribution .exit⟩
theorem mov (src : SourceLine) : Statement (.mov src) := ⟨rfl, rfl, Machine.decodeOp_opcodeContribution .mov⟩
theorem fill (src : SourceLine) : Statement (.fill src) := ⟨rfl, rfl, Machine.decodeOp_opcodeContribution .fill⟩
theorem add (src : SourceLine) : Statement (.add src) := ⟨rfl, rfl, Machine.decodeOp_opcodeContribution .add⟩
theorem mul (src : SourceLine) : Statement (.mul src) := ⟨rfl, rfl, Machine.decodeOp_opcodeContribution .mul⟩
theorem mac (src : SourceLine) : Statement (.mac src) := ⟨rfl, rfl, Machine.decodeOp_opcodeContribution .mac⟩
theorem mad (src : SourceLine) : Statement (.mad src) := ⟨rfl, rfl, Machine.decodeOp_opcodeContribution .mad⟩
theorem sacc (src : SourceLine) : Statement (.sacc src) := ⟨rfl, rfl, Machine.decodeOp_opcodeContribution .sacc⟩

end Sys2Proof.Laws.OpAndLine
end

