-- ==== Sys2Proof/Laws/WordBits.lean ====
section
/-! SUPPORT. Lemmas about single bits and fields of an assembled word. -/

namespace Sys2Proof.Machine

open Sys2Proof

/-- A bit above a bound is 0. -/
theorem testBit_high {v k n : Nat} (h : v < 2 ^ n) (hk : n ≤ k) : v.testBit k = false :=
  Nat.testBit_lt_two_pow (lt_of_lt_of_le h (Nat.pow_le_pow_right (by omega) hk))

/-- A bank contribution read at a position's bank place: the code at its own position, 0 elsewhere. -/
theorem bankField_at_bank {t : Token} {loc loc' : Fin 3} {j : Nat} (hj : j < 3) :
    (bankField t loc).testBit (25 - 3 * loc'.val + j) = (decide (loc = loc') && (bankOf t).elim false fun b => b.code.getLsbD j) := by
  unfold bankField
  rcases bankOf t with _ | b
  · simp
  · simp only [Option.elim_some]
    revert b loc loc'
    intro loc loc' b
    interval_cases j <;> cases b <;> fin_cases loc <;> fin_cases loc' <;> decide

/-- The OPC field of a word: the code ORed with index bits (30_encoding.md R71). -/
theorem opcode_bits {p : Params} (op : Op) (m : Token) {ops : List Token} (h : OperandsAccepted p ops) {k : Nat} (hk : k < 4) :
    (BitVec.ofNat 34 (ruledWord p op.code.toNat m ops)).getLsbD (28 + k) =
      (op.code.getLsbD k || (placeOperands ops).any fun x => (indexPart p x.1 x.2).testBit (28 + k)) := by
  rw [getLsbD_ruledWord op m h]
  have e1 : (fun x : Token × Fin 3 => (operandBits p x.1 x.2).testBit (28 + k)) = fun x => (indexPart p x.1 x.2).testBit (28 + k) := by
    funext x
    rw [operandBits, Nat.testBit_or, testBit_high (bankField_lt x.1 x.2) (by omega), Bool.false_or]
  rw [e1, Nat.add_sub_cancel_left]
  simp [show ¬ 28 + k = 15 by omega, BitVec.getLsbD]

/-- Bounded indices set no bit from the bound up. -/
theorem any_indexPart_false {p : Params} {ops : List Token} {n k : Nat} (hb : IndicesBelow p ops (2 ^ n)) (hk : n ≤ k) :
    ((placeOperands ops).any fun x => (indexPart p x.1 x.2).testBit k) = false := by
  rw [List.any_eq_false]
  intro x hx
  simp [testBit_high (hb x hx) hk]

/-- With small indices a position's bank place holds its own operand's code. -/
theorem bank_bits {p : Params} (op : Op) (m : Token) {ops : List Token} (h : OperandsAccepted p ops)
    (hb : IndicesBelow p ops (2 ^ 19)) (loc : Fin 3) {j : Nat} (hj : j < 3) :
    (BitVec.ofNat 34 (ruledWord p op.code.toNat m ops)).getLsbD (25 - 3 * loc.val + j) =
      (ops[loc.val]?).elim false fun t => (bankOf t).elim false fun b => b.code.getLsbD j := by
  have hloc := loc.isLt
  rw [getLsbD_ruledWord op m h]
  have e1 : ¬ 28 ≤ 25 - 3 * loc.val + j := by omega
  have e2 : ¬ 25 - 3 * loc.val + j = 15 := by omega
  simp only [e1, e2, decide_false, Bool.false_and, Bool.false_or]
  have e3 : ∀ x ∈ placeOperands ops, (operandBits p x.1 x.2).testBit (25 - 3 * loc.val + j) =
      (decide (x.2 = loc) && (bankOf x.1).elim false fun b => b.code.getLsbD j) := by
    intro x hx
    rw [operandBits, Nat.testBit_or, bankField_at_bank hj, testBit_high (hb x hx) (by omega), Bool.or_false]
  rw [Bool.eq_iff_iff, List.any_eq_true]
  constructor
  · rintro ⟨x, hx, hbit⟩
    rw [e3 x hx] at hbit
    simp only [Bool.and_eq_true, decide_eq_true_eq] at hbit
    have := mem_placeOperands.1 (show (x.1, x.2) ∈ placeOperands ops from hx)
    rw [hbit.1] at this
    rw [this]
    exact hbit.2
  · intro hbit
    rcases ht : ops[loc.val]? with _ | t
    · rw [ht] at hbit; simp at hbit
    · rw [ht] at hbit
      have hx := mem_placeOperands.2 ht
      refine ⟨(t, loc), hx, ?_⟩
      rw [e3 _ hx]
      simpa using hbit

/-- The bits of an encoded operand's contribution. -/
theorem operandBits_getLsbD {p : Params} {t : Token} {loc : Fin 3} {f : Contribution} (h : opndEnc p t loc = .ok f) (k : Nat) :
    f.getLsbD k = (operandBits p t loc).testBit k := by
  obtain ⟨ha, rfl⟩ := opndEnc_eq_ok_iff.1 h
  rw [BitVec.getLsbD_ofNat]
  by_cases hk : k < 32
  · simp [hk]
  · simp [hk, testBit_high (operandBits_lt ha) (not_lt.1 hk)]

/-- A magnitude of at most 7 has no bit from 3 up. -/
theorem testBit_small {v k : Nat} (h : v ≤ 7) (hk : 3 ≤ k) : v.testBit k = false :=
  testBit_high (n := 3) (by omega) hk

/-- The bits above 3 of a small index value: the negative marker only. -/
theorem indexValue_testBit_small {p : Params} {t : Token} (h : magnitude p t ≤ 7) {k : Nat} (hk : 3 < k) :
    (indexValue p t).testBit k = (decide (k = 7) && contains t (ascii "-")) := by
  rw [testBit_indexValue, testBit_small h (by omega)]
  simp [show ¬ k = 3 by omega]

/-- With a small magnitude, bit 15 of a contribution is operand 0's negative marker in the bank schedule (30_encoding.md R66). -/
theorem bit15_small {p : Params} {t : Token} {loc : Fin 3} (ha : OperandAccepted p t loc)
    (h : hasIndex p t = true → magnitude p t ≤ 7) :
    (operandBits p t loc).testBit 15 = true ↔ loc = 0 ∧ bankOf t ≠ none ∧ contains t (ascii "-") = true ∧ hasIndex p t = true := by
  rw [operandBits, Nat.testBit_or, testBit_bankField_low t loc (by omega), Bool.false_or, indexPart]
  rcases hi : hasIndex p t with _ | _
  · simp
  · have hm := h hi
    rcases hs : indexShift t loc with _ | s
    · have := ha.1; rw [indexShift_eq_none] at hs; simp_all
    · simp only [if_true, Option.getD_some, Nat.testBit_shiftLeft]
      have := indexShift_le hs
      have h3 : 3 < 15 - s := by omega
      rw [indexValue_testBit_small hm h3]
      rcases indexShift_cases hs with ⟨b, hb, rfl⟩ | ⟨hb, ⟨rfl, rfl⟩ | ⟨rfl, rfl⟩⟩
      · fin_cases loc <;> simp [bankIndexShift, hb]
      · simp [hb]
      · simp

/-- A bit of an operand's index value, read at the word. -/
theorem marker_bit {p : Params} {m t : Token} {ops : List Token} {op : Op} {loc : Fin 3} {s : Nat} {k : Nat} (hk : k ≤ 7)
    (ha : OperandsAccepted p ops) (hx : (t, loc) ∈ placeOperands ops) (hi : hasIndex p t = true) (hs : indexShift t loc = some s) :
    ((indexValue p t).testBit k = true → (BitVec.ofNat 34 (ruledWord p op.code.toNat m ops)).getLsbD (k + s) = true) ∧
    ((indexValue p t).testBit k = false → (headWord op m).getLsbD (k + s) = false →
      (∀ t' loc' f, (t', loc') ∈ placeOperands ops → loc' ≠ loc → opndEnc p t' loc' = .ok f → f.getLsbD (k + s) = false) →
      (BitVec.ofNat 34 (ruledWord p op.code.toNat m ops)).getLsbD (k + s) = false) := by
  have hs' := indexShift_le hs
  have own : (operandBits p t loc).testBit (k + s) = (indexValue p t).testBit k := by
    rw [operandBits, Nat.testBit_or, testBit_bankField_low t loc (by omega), Bool.false_or, indexPart, if_pos hi, hs]
    simp [Nat.testBit_shiftLeft]
  rw [getLsbD_ruledWord op m ha]
  constructor
  · intro h
    rw [Bool.or_eq_true, List.any_eq_true]
    exact .inr ⟨_, hx, by rw [own]; exact h⟩
  · intro h hh ho
    rw [headWord_eq, BitVec.getLsbD_ofNat, testBit_headBits] at hh
    simp only [show k + s < 34 by omega, decide_true, Bool.true_and] at hh
    rw [hh, Bool.false_or, List.any_eq_false]
    intro x hx'
    by_cases hl : x.2 = loc
    · have e1 := mem_placeOperands.1 (show (x.1, x.2) ∈ placeOperands ops from hx')
      rw [hl, mem_placeOperands.1 hx] at e1
      cases e1
      rw [hl, own, h]; simp
    · have := ho x.1 x.2 _ hx' hl (opndEnc_of_accepted (ha _ hx'))
      rw [operandBits_getLsbD (opndEnc_of_accepted (ha _ hx'))] at this
      simp [this]

/-- Magnitudes of at most 7 are small indices. -/
theorem small_below {p : Params} {ops : List Token}
    (hsm : ∀ t loc, (t, loc) ∈ placeOperands ops → hasIndex p t = true → magnitude p t ≤ 7) : IndicesBelow p ops (2 ^ 19) := by
  rintro ⟨t, loc⟩ hx
  unfold indexPart
  dsimp only
  split
  · rename_i hi
    have hv : indexValue p t < 2 ^ 8 := (indexValue_lt_iff p t (le_refl 8)).2 (by have := hsm t loc hx hi; omega)
    rcases hs : indexShift t loc with _ | s
    · simp; omega
    · have := indexShift_le hs
      rw [Option.getD_some, shiftLeft_lt_iff _ (by omega)]
      exact lt_of_lt_of_le hv (Nat.pow_le_pow_right (by omega) (by omega))
  · simp

/-- The bits of the mask. -/
theorem getLsbD_opcodeMask (k : Nat) : opcodeMask.getLsbD k = (decide (28 ≤ k) && decide (k < 34)) := by
  by_cases hk : k < 34
  · have : ∀ i : Fin 34, opcodeMask.getLsbD i.val = (decide (28 ≤ i.val) && decide (i.val < 34)) := by decide
    exact this ⟨k, hk⟩
  · simp [hk, BitVec.getLsbD_of_ge _ _ (not_lt.1 hk)]

theorem getLsbD_opcodeContribution (c : BitVec 4) (k : Nat) :
    (opcodeContribution c).getLsbD k = (decide (28 ≤ k) && c.getLsbD (k - 28)) := by
  unfold opcodeContribution
  simp only [BitVec.getLsbD_shiftLeft, BitVec.getLsbD_setWidth]
  by_cases h : 28 ≤ k
  · by_cases h2 : k < 34
    · simp [h, h2, not_lt.2 h, show k - 28 < 34 by omega]
    · have : c.getLsbD (k - 28) = false := BitVec.getLsbD_of_ge _ _ (by omega)
      simp [this]
  · simp [h, not_le.1 h]

/-- Mask and match read the six top bits. -/
theorem mask_match_iff (w : Word) (c : BitVec 4) :
    (w &&& opcodeMask == opcodeContribution c) = (w.extractLsb' 28 6 == c.setWidth 6) := by
  rw [Bool.eq_iff_iff, beq_iff_eq, beq_iff_eq]
  constructor
  · intro h
    apply BitVec.eq_of_getLsbD_eq
    intro i hi
    have := congrArg (·.getLsbD (28 + i)) h
    simp only [BitVec.getLsbD_and, getLsbD_opcodeMask, getLsbD_opcodeContribution, Nat.add_sub_cancel_left] at this
    simp only [BitVec.getLsbD_extractLsb', BitVec.getLsbD_setWidth, hi, decide_true, Bool.true_and]
    simpa [show 28 + i < 34 by omega] using this
  · intro h
    apply BitVec.eq_of_getLsbD_eq
    intro i hi
    simp only [BitVec.getLsbD_and, getLsbD_opcodeMask, getLsbD_opcodeContribution]
    by_cases h28 : 28 ≤ i
    · have := congrArg (·.getLsbD (i - 28)) h
      simp only [BitVec.getLsbD_extractLsb', BitVec.getLsbD_setWidth, show i - 28 < 6 by omega, decide_true, Bool.true_and, show 28 + (i - 28) = i by omega] at this
      rw [this]; simp [h28, hi]
    · simp [h28]

end Sys2Proof.Machine
end

