-- ==== Sys2Proof/Laws/WordLines.lean ====
section
/-! SUPPORT. Lemmas about the line that stands for a word (`lineOfWord`, log 18). -/

namespace Sys2Proof.Machine

open Sys2Proof

/-- The AAM part of the mnemonic of a word's line. -/
def aamText (w : Word) : Bytes := if w.getLsbD 15 then ascii "(AAM)" else []

/-- Operand 2 of a word's line. -/
def idxTok (n : Nat) : Token := ascii "BANK[A" ++ decimalText n ++ ascii "]"

/-- The operands of a word's line. -/
def wordOps (w : Word) : List Lexeme :=
  if wordMagnitude w = 0 then [] else [⟨[0x20], ascii "BANK"⟩, ⟨[0x20], ascii "BANK"⟩, ⟨[0x20], idxTok (wordMagnitude w)⟩]

/-- A word's line, cut into tokens. -/
theorem lineOfWord_eq (op : Op) (w : Word) :
    lineOfWord op w = joinLexemes (⟨[], op.spelling ++ aamText w⟩ :: wordOps w, []) := by
  unfold lineOfWord wordOps
  have : ascii " BANK BANK BANK[A" = [0x20] ++ ascii "BANK" ++ [0x20] ++ ascii "BANK" ++ [0x20] ++ ascii "BANK[A" := by decide
  by_cases h : wordMagnitude w = 0
  · simp only [if_pos h]; simp [joinLexemes, Lexeme.text, aamText]
  · simp only [if_neg h, this]; simp [joinLexemes, Lexeme.text, aamText, idxTok]

/-- The mnemonic of a word's line selects the operation and the flag. -/
theorem mnemonic_facts (op : Op) (a : Bool) :
    let m := op.spelling ++ (if a then ascii "(AAM)" else [])
    opcLookup m = some op ∧ flagDec m = a ∧ m ≠ [] ∧ (∀ b ∈ m, isSeparator defaultWsSet b = false) ∧ lf ∉ m := by
  cases op <;> cases a <;> decide

theorem mem_decimalText {n : Nat} {b : Byte} (h : b ∈ decimalText n) : ∃ d, d < 10 ∧ b = digitByte d := by
  obtain ⟨ds, _, h2, _, _, h5⟩ := decimalText_eq n
  rw [h5] at h
  obtain ⟨d, hd, rfl⟩ := List.mem_map.1 h
  exact ⟨d, h2 d hd, rfl⟩

/-- The bytes of operand 2. -/
theorem mem_idxTok {n : Nat} {b : Byte} (h : b ∈ idxTok n) : b ∈ ascii "BANK[A]" ∨ ∃ d, d < 10 ∧ b = digitByte d := by
  simp only [idxTok, List.mem_append] at h
  rcases h with (h | h) | h
  · left; revert h; revert b; decide
  · exact .inr (mem_decimalText h)
  · left; revert h; revert b; decide

theorem idxTok_byte {n : Nat} {b : Byte} (h : b ∈ idxTok n) : isSeparator defaultWsSet b = false ∧ b ≠ lf ∧ b ≠ 0x2D := by
  rcases mem_idxTok h with h | ⟨d, hd, rfl⟩
  · have : ∀ b ∈ ascii "BANK[A]", isSeparator defaultWsSet b = false ∧ b ≠ lf ∧ b ≠ 0x2D := by decide
    exact this b h
  · interval_cases d <;> decide

theorem idxTok_digits (n : Nat) : digits defaultParams (idxTok n) = digits defaultParams (decimalText n) := by
  rw [idxTok, digits_append, digits_append]
  rw [show digits defaultParams (ascii "BANK[A") = [] by decide, show digits defaultParams (ascii "]") = [] by decide]
  simp

/-- Operand 2 names bank BANK and has the wanted index value. -/
theorem idxTok_facts (n : Nat) : bankOf (idxTok n) = some .bank ∧ hasIndex defaultParams (idxTok n) = true ∧
    magnitude defaultParams (idxTok n) = n ∧ indexValue defaultParams (idxTok n) = n := by
  obtain ⟨ds, h1, h2, h3, h4, h5⟩ := decimalText_eq n
  have hb : contains (idxTok n) (ascii "BANK") = true := by
    rw [idxTok, List.append_assoc]; exact contains_append_left _ (by decide)
  have hA : contains (idxTok n) (ascii "[A") = true := by
    rw [idxTok, List.append_assoc]; exact contains_append_left _ (by decide)
  have hm : contains (idxTok n) (ascii "-") = false := by
    rw [← Bool.not_eq_true, contains_iff_infix, show ascii "-" = [0x2D] by decide, List.singleton_infix_iff]
    exact fun h => (idxTok_byte h).2.2 rfl
  have hmag : magnitude defaultParams (idxTok n) = n := by
    rw [magnitude, idxTok_digits, h5, digits_map_digitByte _ h2, h3]
  refine ⟨by simp [bankOf, bankTable, firstMatch, hb], ?_, hmag, ?_⟩
  · simp [hasIndex, idxTok_digits, h5, digits_map_digitByte _ h2, h1]
  · simp [indexValue, markDirect, markNegative, hA, hm, hmag]

theorem wordMagnitude_testBit (w : Word) (k : Nat) : (wordMagnitude w).testBit k = (w.getLsbD k && (decide (k < 28) && decide (k ≠ 15))) := by
  unfold wordMagnitude
  rw [BitVec.testBit_toNat, BitVec.getLsbD_and]
  congr 1
  by_cases hk : k < 34
  · have : ∀ i : Fin 34, (0x00FFF7FFF : Word).getLsbD i.val = (decide (i.val < 28) && decide (i.val ≠ 15)) := by decide
    exact this ⟨k, hk⟩
  · rw [BitVec.getLsbD_of_ge _ _ (not_lt.1 hk)]; simp; omega

theorem wordMagnitude_lt (w : Word) : wordMagnitude w < 2 ^ 28 := by
  apply Nat.lt_pow_two_of_testBit
  intro i hi
  rw [wordMagnitude_testBit]; simp; omega

end Sys2Proof.Machine
end

