-- ==== Sys2Proof/Tests/Slice0.lean ====
section
/-! SUPPORT. Tests. Expected values are the worked examples and vectors of spec/ (95_test_vectors.md and the examples
of the rules), or written out from the encodings by hand. Then one witness for each statement with hypotheses. -/

namespace Sys2Proof.Tests

open Sys2Proof Sys2Proof.Machine

/-! ### Helpers -/

/-- A run in progress on an input, at IDX 0. -/
def runningOn (input : String) : State := { State.reset with phase := .running, source := ⟨.held, ascii input⟩ }

/-- The state a step goes on with. -/
def nextOf : Host.Outcome State Fault Refusal → Option State
  | .next t => some t
  | _ => none

/-- The text one step on an input emits. -/
def emitted (input : String) : Option Bytes := (nextOf (step (runningOn input))).map State.outputText

/-- The result of a line's tokens. -/
def asmOf (line : String) : Except EncodeError Word := asm defaultParams (tokens defaultParams (ascii line))

/-- The instruction of a line. -/
def instrOf (line : String) : Option Instr := (decode defaultParams (ascii line)).toOption

/-- The line of an instruction, or an empty one. -/
def srcOf (line : String) : SourceLine := ((instrOf line).map Instr.src).getD ⟨⟨[], []⟩, [], []⟩

/-- The last record's word after an instruction's meaning. -/
def wordAfter (m : SourceLine → State → Host.Outcome State Fault Refusal) (line : String) : Option RecordResult :=
  (nextOf (m (srcOf line) (runningOn ""))).bind fun t => t.sink.records.getLast?.map Record.result

/-! ### Instructions: the examples of 41_opcode_table.md R92 to R101 -/

theorem test_execNop : wordAfter execNop "NOP" = some (.ok 0x000000000) := by decide
theorem test_execJump : wordAfter execJump "JUMP 7 3" = some (.ok 0x01000780B) := by decide
theorem test_execExit : wordAfter execExit "EXIT" = some (.ok 0x020000000) := by decide
theorem test_execMov : wordAfter execMov "MOV GRF_A1 BANK-2" = some (.ok 0x0420009A0) := by decide
theorem test_execFill : wordAfter execFill "FILL X" = some (.ok 0x050000000) := by decide
theorem test_execAdd : wordAfter execAdd "ADD SRF_M[A3] SRF_M[A3] SRF_M[A3]" = some (.ok 0x089200333) := by decide
theorem test_execMul : wordAfter execMul "MUL GRF_A[A0] GRF_B[A1] GRF_A[A2]" = some (.ok 0x092880012) := by decide
theorem test_execMac : wordAfter execMac "MAC(AAM) GRF_B[A1] GRF_A[A2] SRF_A[A3]" = some (.ok 0x0A4588123) := by decide
theorem test_execMad : wordAfter execMad "MAD(AAM) GRF_A[A0] GRF_A[A0] SRF_M[A0]" = some (.ok 0x0B2608000) := by decide
theorem test_execSacc : wordAfter execSacc "SACC GRF_A1 GRF_B2 SRF_A3 EXTRA" = some (.ok 0x0C29809AB) := by decide

/-! ### First match: the corner cases of R92 to R101 -/

theorem test_first_match_EXITNOP : opcLookup (ascii "EXITNOP") = some .nop := by decide
theorem test_first_match_NOPJUMP : opcLookup (ascii "NOPJUMP") = some .nop := by decide
theorem test_first_match_MOVEXIT : opcLookup (ascii "MOVEXIT") = some .exit := by decide
theorem test_first_match_MOVE : opcLookup (ascii "MOVE") = some .mov := by decide
theorem test_first_match_FILLMOV : opcLookup (ascii "FILLMOV") = some .mov := by decide
theorem test_first_match_MULADD : opcLookup (ascii "MULADD") = some .add := by decide
theorem test_first_match_MULMAC : opcLookup (ascii "MULMAC") = some .mul := by decide
theorem test_first_match_MACADD : opcLookup (ascii "MACADD") = some .add := by decide
theorem test_first_match_MADD : opcLookup (ascii "MADD") = some .add := by decide
theorem test_first_match_SACCMAC : opcLookup (ascii "SACCMAC") = some .mac := by decide
theorem test_lower_case_misses : opcLookup (ascii "nop") = none ∧ opcLookup (ascii "Mov") = none := by decide

/-! ### Decoding: words written out bit by bit (30_encoding.md R68, R71) -/

theorem test_word_nop : decodeOp 0b0000000000000000000000000000000000 = some .nop ∧
    (decodeTableWord 40 0b0000000000000000000000000000000000).map Instr.op = some .nop := by decide
theorem test_word_jump : decodeOp 0b0000010000000000000000000000000000 = some .jump ∧
    (decodeTableWord 40 0b0000010000000000000000000000000000).map Instr.op = some .jump := by decide
theorem test_word_exit : decodeOp 0b0000100000000000000000000000000000 = some .exit ∧
    (decodeTableWord 40 0b0000100000000000000000000000000000).map Instr.op = some .exit := by decide
theorem test_word_mov : decodeOp 0b0001000000000000000000000000000000 = some .mov ∧
    (decodeTableWord 40 0b0001000000000000000000000000000000).map Instr.op = some .mov := by decide
theorem test_word_fill : decodeOp 0b0001010000000000000000000000000000 = some .fill ∧
    (decodeTableWord 40 0b0001010000000000000000000000000000).map Instr.op = some .fill := by decide
theorem test_word_add : decodeOp 0b0010000000000000000000000000000000 = some .add ∧
    (decodeTableWord 40 0b0010000000000000000000000000000000).map Instr.op = some .add := by decide
theorem test_word_mul : decodeOp 0b0010010000000000000000000000000000 = some .mul ∧
    (decodeTableWord 40 0b0010010000000000000000000000000000).map Instr.op = some .mul := by decide
theorem test_word_mac : decodeOp 0b0010100000000000000000000000000000 = some .mac ∧
    (decodeTableWord 40 0b0010100000000000000000000000000000).map Instr.op = some .mac := by decide
theorem test_word_mad : decodeOp 0b0010110000000000000000000000000000 = some .mad ∧
    (decodeTableWord 40 0b0010110000000000000000000000000000).map Instr.op = some .mad := by decide
theorem test_word_sacc : decodeOp 0b0011000000000000000000000000000000 = some .sacc ∧
    (decodeTableWord 40 0b0011000000000000000000000000000000).map Instr.op = some .sacc := by decide
theorem test_word_reserved : decodeOp 0b0000110000000000000000000000000000 = none ∧
    decodeOp 0b0101000000000000000000000000000000 = none ∧ decodeTableWord 40 (2 ^ 34) = none := by decide
theorem test_decode_line : instrOf "  MOV\tGRF_A1 X " =
    some (.mov ⟨⟨ascii "  ", ascii "MOV"⟩, [⟨ascii "\t", ascii "GRF_A1"⟩, ⟨ascii " ", ascii "X"⟩], ascii " "⟩) := by decide
theorem test_decode_rejects_blank : decode defaultParams (ascii " \t ") = .error .blankLine := by rfl
theorem test_decode_rejects_unknown : decode defaultParams (ascii "FOO 1 2") = .error .unknownMnemonic := by rfl
theorem test_table_word_runs : (nextOf (step (State.reset.withFetchWord 40 0x0A1238000))).map State.outputText =
    some (ascii "ukernel[0]=0b0010100001001000111000000000000000;  // MAC(AAM) BANK BANK BANK[A19070976]\n") := by decide

/-! ### Operands: 95_test_vectors.md V3 -/

theorem test_operand_0 : [0, 1, 2].map (opndEnc defaultParams (ascii "GRF_A-1")) =
    [.ok 0x02008900, .ok 0x00400890, .ok 0x00080089] := by decide
theorem test_operand_1 : [0, 1, 2].map (opndEnc defaultParams (ascii "SRF_M[A8]")) =
    [.ok 0x08000800, .ok 0x01000080, .ok 0x00200008] := by decide
theorem test_operand_2 : [0, 1, 2].map (opndEnc defaultParams (ascii "R_IQ16")) =
    [.ok 0x0C001800, .ok 0x01800180, .ok 0x00300018] := by decide
theorem test_operand_3 : [0, 1, 2].map (opndEnc defaultParams (ascii "-5")) =
    [.ok 0x00046800, .ok 0x0000008D, .error .invalidOperandPosition] := by decide
theorem test_operand_4 : [0, 1, 2].map (opndEnc defaultParams (ascii "[A5]")) =
    [.ok 0x00002800, .ok 0x00000005, .error .invalidOperandPosition] := by decide
theorem test_operand_5 : [0, 1, 2].map (opndEnc defaultParams (ascii "GRF_BANK3")) =
    [.ok 0x00000B00, .ok 0x000000B0, .ok 0x0000000B] := by decide
theorem test_operand_6 : [0, 1, 2].map (opndEnc defaultParams (ascii "grf_a1")) =
    [.ok 0x00004800, .ok 0x00000009, .error .invalidOperandPosition] := by decide
theorem test_operand_7 : [0, 1, 2].map (opndEnc defaultParams (ascii "GRF_A1[A2]")) =
    [.ok 0x02000C00, .ok 0x004000C0, .ok 0x0008000C] := by decide
theorem test_operand_8 : [0, 1, 2].map (opndEnc defaultParams (ascii "GRF_A007")) =
    [.ok 0x02000F00, .ok 0x004000F0, .ok 0x0008000F] := by decide
theorem test_operand_9 : [0, 1, 2].map (opndEnc defaultParams (ascii "GRF_A[B3]")) =
    [.ok 0x02000B00, .ok 0x004000B0, .ok 0x0008000B] := by decide
theorem test_operand_width : opndEnc defaultParams (ascii "GRF_A4294967295") 2 = .ok 0x0FFFFFFFF ∧
    opndEnc defaultParams (ascii "GRF_A4294967296") 2 = .error .invalidOperandPosition ∧
    opndEnc defaultParams (ascii "2097151") 0 = .ok 0x0FFFFF800 ∧
    opndEnc defaultParams (ascii "2097152") 0 = .error .invalidOperandPosition := by decide
theorem test_operand_reject_policy :
    opndEnc { defaultParams with emptyOperand := .reject } (ascii "X") 0 = .error .invalidOperandPosition ∧
    opndEnc { defaultParams with emptyOperand := .reject } (ascii "BANK") 0 = .ok 0 := by decide

/-! ### Flags: V2 -/

theorem test_flag : flagDec (ascii "MOV(A") = true ∧ flagDec (ascii "MAD_AAM") = true ∧
    flagDec (ascii "MOV(aam)") = false ∧ flagDec (ascii "MOVA(") = false := by decide

/-! ### Lines, records, runs: V4, V6, P2, P4, P5, P6 -/

theorem test_collision : asmOf "MOV R_IQ-7 L_IQ-7 SRF_M-7" = .ok 0x04D608FFF := by decide
theorem test_space_splits : asmOf "MOV (AAM)" = .ok 0x040000000 := by decide
theorem test_fourth_operand_cannot_fail : asmOf "SACC GRF_A1 GRF_B2 SRF_A3 7" = .ok 0x0C29809AB := by decide
theorem test_failure_record : emitted "FOO 1 2\nNOP" =
    some (ascii "Error processing line 0: Unknown operation: FOO 1 2\n") := by decide
theorem test_record_copies_line : (nextOf (step { runningOn "  JUMP\t7  3  \r\n" with idx := 7 })).map State.outputText =
    some (ascii "ukernel[7]=0b0000010000000000000111100000001011;  //   JUMP\t7  3  \n") := by decide
theorem test_lines : streamLines (ascii "NOP\n\nFOO 1 2\r\n   \nEXIT") =
    [ascii "NOP", [], ascii "FOO 1 2", ascii "   ", ascii "EXIT"] := by decide
theorem test_lines_crcr : streamLines (ascii "A\r\r\nB\r") = [ascii "A\r", ascii "B\r"] := by decide
theorem test_abort : (nextOf (step (State.reset.handOver (ascii "NOP\n") true false))).map
    (fun t => (t.phase, t.source.handle, t.sink.records)) = some (.aborted, .released, []) := by decide
theorem test_empty_input : (nextOf (step (runningOn ""))).map (fun t => (t.phase, t.idx, t.sink.records)) =
    some (.finished, 0, []) := by decide
theorem test_saturating : saturatingDecimal (digits defaultParams (ascii "GRF_A99999999999999999999")) = 2 ^ 32 := by
  decide
theorem test_lanes_hold_back :
    ((LaneMachine.init defaultParams (ascii "NOP\nEXIT\n")).runSchedule 2 [.take, .take, .finish 1, .emit]).emitted = [] ∧
    (((LaneMachine.init defaultParams (ascii "NOP\nEXIT\n")).runSchedule 2
      [.take, .take, .finish 1, .emit, .finish 0, .emit, .emit]).emitted.map Record.idx) = [0, 1] := by decide

/-! ### WellFormed refuses: one ill-formed term for each check -/

def goodMov : SourceLine := ⟨⟨[], ascii "MOV"⟩, [⟨ascii " ", ascii "GRF_A1"⟩], []⟩
theorem test_wf_good : (Instr.mov goodMov).wf defaultParams = true := by decide
theorem test_wf_missing_separator :
    SourceLine.separatorsOk defaultParams { goodMov with operands := [⟨[], ascii "GRF_A1"⟩] } = false := by decide
theorem test_wf_bad_separator :
    SourceLine.separatorsOk defaultParams { goodMov with trail := ascii "x" } = false := by decide
theorem test_wf_bad_lead :
    SourceLine.separatorsOk defaultParams { goodMov with mnemonic := ⟨ascii "x", ascii "MOV"⟩ } = false := by decide
theorem test_wf_empty_token :
    SourceLine.tokensOk defaultParams { goodMov with operands := [⟨ascii " ", []⟩] } = false := by decide
theorem test_wf_space_in_token :
    SourceLine.tokensOk defaultParams { goodMov with mnemonic := ⟨[], ascii "MO V"⟩ } = false := by decide
theorem test_wf_line_feed :
    SourceLine.noLineFeed { goodMov with operands := [⟨ascii " ", ascii "A\nB"⟩] } = false := by decide
theorem test_wf_wrong_operation : Instr.mnemonicSelects (.add goodMov) = false := by decide

/-! ### Witnesses: a concrete case that meets each statement's hypotheses -/

/-- Whether a step from a state answers a next state. -/
def goesOn (s : State) : Bool := (nextOf (step s)).isSome

/-- The state after one step. -/
def after1 (s : State) : State := (nextOf (step s)).getD s

def startState : State := State.reset.handOver (ascii "MOV GRF_A1 BANK-2\n\nFOO 1 2\n") true true
def blankState : State := runningOn " \t\nNOP\n"
def fooState : State := runningOn "FOO 1 2\n"
def movState : State := runningOn "MOV GRF_A1 BANK-2\nNOP\n"

theorem witness_StartOfRunZeroesIndexAndRecords : startState.phase = .start ∧ startState.source.handle = .held ∧
    startState.sink.handle = .held ∧
    readLine startState.source.unread = some (ascii "MOV GRF_A1 BANK-2", ascii "\nFOO 1 2\n") ∧
    goesOn (after1 startState) = true := by decide
theorem witness_RunAbortsBeforeAnyLine :
    (∀ ab ∈ [(true, false), (false, true), (false, false)],
      (State.reset.handOver [] ab.1 ab.2).phase = .start ∧
      ¬ ((State.reset.handOver [] ab.1 ab.2).source.handle = .held ∧
        (State.reset.handOver [] ab.1 ab.2).sink.handle = .held)) := by decide
theorem witness_StreamsReleasedOnEveryExit :
    (nextOf (step (runningOn ""))).map State.phase = some .finished ∧
    (nextOf (step (State.reset.handOver [] false true))).map State.phase = some .aborted ∧
    (nextOf (step movState)).map State.phase = some .running ∧
    (nextOf (step startState)).map State.phase = some .running := by decide
theorem witness_StepRunsTheDecodedInstruction : movState.phase = .running ∧
    readLine movState.source.unread = some (ascii "MOV GRF_A1 BANK-2", ascii "NOP\n") ∧
    lineFits movState.params (ascii "MOV GRF_A1 BANK-2") = true ∧ indexFits movState.params movState.idx = true ∧
    (decode movState.params (ascii "MOV GRF_A1 BANK-2")).toOption = some (.mov (srcOf "MOV GRF_A1 BANK-2")) := by decide
theorem witness_LoopTurnEmitsTheLinesRecord : movState.phase = .running ∧
    readLine movState.source.unread = some (ascii "MOV GRF_A1 BANK-2", ascii "NOP\n") ∧
    lineFits movState.params (ascii "MOV GRF_A1 BANK-2") = true ∧ indexFits movState.params movState.idx = true ∧
    movState.sink.failing = false ∧ (runningOn "").phase = .running ∧ (runningOn "").source.unread = [] := by decide
theorem witness_UnknownMnemonicTakesUnknownOperation : fooState.phase = .running ∧
    readLine fooState.source.unread = some (ascii "FOO 1 2", []) ∧ lineFits fooState.params (ascii "FOO 1 2") = true ∧
    indexFits fooState.params fooState.idx = true ∧ fooState.sink.failing = false ∧
    tokens fooState.params (ascii "FOO 1 2") = [ascii "FOO", ascii "1", ascii "2"] ∧
    (∀ x ∈ opcTable, contains (ascii "FOO") x.1 = false) := by decide
theorem witness_BlankLineTakesItsIndex : blankState.phase = .running ∧
    readLine blankState.source.unread = some (ascii " \t", ascii "NOP\n") ∧
    lineFits blankState.params (ascii " \t") = true ∧ indexFits blankState.params blankState.idx = true ∧
    blankState.sink.failing = false ∧ (∀ b ∈ ascii " \t", b ∈ blankState.params.wsSet) := by decide
theorem witness_RunEmitsOneRecordPerLine : startState.phase = .start ∧ startState.source.handle = .held ∧
    startState.sink.handle = .held ∧ startState.sink.failing = false ∧ startState.params.idxBits = none ∧
    startState.params.maxLineBytes = none ∧ (streamLines startState.source.unread).length = 3 := by decide
theorem witness_StepKeepsTheInvariant : MachineInv movState ∧ goesOn movState = true ∧ MachineInv (runningOn "") ∧
    goesOn (runningOn "") = true ∧ MachineInv startState ∧ goesOn startState = true ∧
    MachineInv (State.reset.handOver [] true false) ∧ goesOn (State.reset.handOver [] true false) = true := by
  refine ⟨⟨rfl, rfl, rfl, fun k r h => ?_⟩, by decide, ⟨rfl, rfl, rfl, fun k r h => ?_⟩, by decide, rfl, by decide,
    rfl, by decide⟩
  · exact absurd h (by simp [movState, runningOn])
  · exact absurd h (by simp [runningOn])
theorem witness_IndexAdvancesByOnePerLine : goesOn startState = true ∧ (after1 startState).phase = .running ∧
    goesOn movState = true ∧ goesOn fooState = true ∧ goesOn (runningOn "") = true ∧
    readLine fooState.source.unread = some (ascii "FOO 1 2", []) ∧ readLine (runningOn "").source.unread = none := by
  decide

/-- A running state whose output stream fails. -/
def failingState : State := { movState with sink := ⟨.held, true, []⟩ }

/-- A running state of a bounded realization. -/
def boundedState (line idx : Option Nat) : State :=
  { movState with params := { defaultParams with maxLineBytes := line, idxBits := idx }, idx := 4 }

theorem witness_OutputFailureEndsTheRun : failingState.sink.failing = true ∧ failingState.phase = .running ∧
    readLine failingState.source.unread = some (ascii "MOV GRF_A1 BANK-2", ascii "NOP\n") ∧
    lineFits failingState.params (ascii "MOV GRF_A1 BANK-2") = true ∧
    indexFits failingState.params failingState.idx = true := by decide
theorem witness_BoundedRealizationRefuses_line : (boundedState (some 16) none).phase = .running ∧
    readLine (boundedState (some 16) none).source.unread = some (ascii "MOV GRF_A1 BANK-2", ascii "NOP\n") ∧
    (boundedState (some 16) none).params.maxLineBytes = some 16 ∧ 16 < (ascii "MOV GRF_A1 BANK-2").length ∧
    lineFits (boundedState (some 17) none).params (ascii "MOV GRF_A1 BANK-2") = true := by decide
theorem witness_BoundedRealizationRefuses_index : (boundedState (some 17) (some 2)).phase = .running ∧
    lineFits (boundedState (some 17) (some 2)).params (ascii "MOV GRF_A1 BANK-2") = true ∧
    (boundedState (some 17) (some 2)).params.idxBits = some 2 ∧ 2 ^ 2 ≤ (boundedState (some 17) (some 2)).idx ∧
    indexFits (boundedState none (some 3)).params 4 = true ∧ movState.params.idxBits = none ∧
    movState.params.maxLineBytes = none := by decide
theorem witness_SameLineSameResult : movState.params = (boundedState none none).params ∧
    movState.phase = .running ∧ (boundedState none none).phase = .running ∧
    readLine movState.source.unread = some (ascii "MOV GRF_A1 BANK-2", ascii "NOP\n") ∧
    readLine (boundedState none none).source.unread = some (ascii "MOV GRF_A1 BANK-2", ascii "NOP\n") ∧
    goesOn movState = true ∧ goesOn (boundedState none none) = true := by decide

/-! Accepted operands, for each of the three completion statements. -/

theorem witness_ControlInstructionsComplete : movState.sink.failing = false ∧
    (∀ line ∈ ["JUMP 7 3", "NOP", "EXIT BANK BANK SRF_A4294967295"],
      OperandsAccepted movState.params (srcOf line).operandTokens) := by
  unfold OperandsAccepted OperandAccepted
  decide
theorem witness_MoveInstructionsComplete : movState.sink.failing = false ∧
    (∀ line ∈ ["MOV GRF_A1 BANK-2", "FILL X 4294967295"],
      OperandsAccepted movState.params (srcOf line).operandTokens) := by
  unfold OperandsAccepted OperandAccepted
  decide
theorem witness_ArithmeticInstructionsComplete : movState.sink.failing = false ∧
    (∀ line ∈ ["MAC(AAM) GRF_B[A1] GRF_A[A2] SRF_A4294967295", "ADD GRF_A16777215", "MUL 2097151"],
      OperandsAccepted movState.params (srcOf line).operandTokens) := by
  unfold OperandsAccepted OperandAccepted
  decide
theorem witness_FailingOperandTakesTheError : movState.sink.failing = false ∧
    (∀ line ∈ ["JUMP 7 3 2", "MOV GRF_A16777216", "ADD 1 4294967296"],
      ¬ OperandsAccepted movState.params (srcOf line).operandTokens) := by
  unfold OperandsAccepted OperandAccepted
  decide
theorem witness_InstructionFrame : (nextOf (exec (.mov (srcOf "MOV GRF_A1")) movState)).isSome = true ∧
    (nextOf (exec (.mov (srcOf "MOV 1 2 3")) movState)).isSome = true := by decide
theorem witness_DecodeEncodeRoundTrip :
    (∀ line ∈ ["NOP", " JUMP 7\t3 ", "EXIT", "MOV GRF_A1 BANK-2", "FILL X", "ADD A B C D", "MUL", "MAC(AAM)", "MAD",
      "SACC GRF_A1"], ((instrOf line).map fun i => i.wf defaultParams) = some true) := by decide
theorem witness_DecodedLineIsKeptVerbatim : (instrOf " MOV GRF_A1 ").isSome = true ∧ lf ∉ ascii " MOV GRF_A1 " := by
  decide
theorem witness_LineFraming : lf ∉ ascii "NOP" ∧ (ascii "NOP").getLast? ≠ some cr ∧ ascii "NOP" ≠ [] ∧
    readLine (ascii "NOP\r\nEXIT") = some (ascii "NOP", ascii "EXIT") := by decide
theorem witness_StatusCodes : (State.reset.handOver [] false true).phase = .start ∧
    (nextOf (step (State.reset.handOver [] false true))).map State.phase = some .aborted := by decide
theorem witness_OpcodeLookupIsFirstMatch :
    opcTable = opcTable.take 8 ++ (ascii "MAD", Op.mad) :: [(ascii "SACC", Op.sacc)] ∧
    contains (ascii "MAD") (ascii "MAD") = true ∧ (∀ x ∈ opcTable.take 8, contains (ascii "MAD") x.1 = false) ∧
    (∀ x ∈ opcTable, contains (ascii "JMP") x.1 = false) := by decide
theorem witness_OpcodeFieldDecodes : asmOf "MOV GRF_A1048575" = .ok 0x04FFFFF00 ∧
    IndicesBelow defaultParams [ascii "GRF_A1048575"] (2 ^ 28) ∧ opcLookup (ascii "MOV") = some .mov := by
  unfold IndicesBelow
  decide
theorem witness_EveryOperationWordHasALine : decodeOp 0x0CFFFFFFF = some .sacc ∧ decodeOp 0 = some .nop ∧
    movState.params = defaultParams ∧ movState.sink.failing = false := by decide
theorem witness_NoBankAtLoc2Rejected : bankOf (ascii "7") = none ∧ bankOf (ascii "X") = none := by decide
theorem witness_OperandContribution : OperandAccepted defaultParams (ascii "GRF_A16777215") 0 ∧
    OperandAccepted defaultParams (ascii "2097151") 0 ∧ ¬ OperandAccepted defaultParams (ascii "2097152") 0 ∧
    bankOf (ascii "GRF_A16777215") = some .grfA ∧ bankOf (ascii "2097151") = none := by
  unfold OperandAccepted
  decide
theorem witness_WideIndexRejectedAtTheLimit : hasIndex defaultParams (ascii "GRF_A268435456") = true ∧
    bankOf (ascii "GRF_A268435456") ≠ none ∧ magnitude defaultParams (ascii "GRF_A268435456") = 2 ^ 28 ∧
    indexShift (ascii "GRF_A268435456") 1 = some 4 ∧ hasIndex defaultParams (ascii "2097151") = true ∧
    bankOf (ascii "2097151") = none ∧ indexShift (ascii "2097151") 0 = some 11 := by decide
theorem witness_EmptyOperandPolicy : bankOf (ascii "X") = none ∧ hasIndex defaultParams (ascii "X") = false ∧
    defaultParams.emptyOperand = .ignore := by decide
theorem witness_NoDigitLeavesOnlyTheBankCode : hasIndex defaultParams (ascii "-") = false ∧
    opndEnc defaultParams (ascii "-") 1 = .ok 0 ∧ hasIndex defaultParams (ascii "L_IQ") = false ∧
    opndEnc defaultParams (ascii "L_IQ") 2 = .ok 0x00280000 := by decide
theorem witness_IndexValueBits : hasIndex defaultParams (ascii "GRF_A-1") = true ∧
    (0x2D : Byte) ∈ ascii "GRF_A-1" ∧ (0x2D : Byte) ∉ ascii "GRF_A[A1]" ∧
    hasIndex defaultParams (ascii "GRF_A[A1]") = true ∧ contains (ascii "GRF_A[A1]") [0x5B, 0x41] = true ∧
    contains (ascii "GRF_A-1") [0x5B, 0x41] = false := by decide
theorem witness_SaturatingAccumulatorIsExact : decimal [4, 2, 9, 4, 9, 6, 7, 2, 9, 5] = 2 ^ 32 - 1 ∧
    decimal [4, 2, 9, 4, 9, 6, 7, 2, 9, 6] = 2 ^ 32 ∧ indexShift (ascii "GRF_A1") 2 = some 0 := by decide
theorem witness_FirstFailingOperandDecides : opcLookup (ascii "MOV") = some .mov ∧
    placeOperands [ascii "BANK", ascii "4294967296", ascii "X"] =
      [(ascii "BANK", 0)] ++ (ascii "4294967296", 1) :: [(ascii "X", 2)] ∧
    opndEnc defaultParams (ascii "BANK") 0 = .ok 0 ∧
    opndEnc defaultParams (ascii "4294967296") 1 = .error .invalidOperandPosition := by decide
theorem witness_MnemonicIsTestedFirst : opcLookup (ascii "FOO") = none ∧
    (ascii "3", (2 : Fin 3)) ∈ placeOperands [ascii "1", ascii "2", ascii "3"] ∧
    opndEnc defaultParams (ascii "3") 2 = .error .invalidOperandPosition := by decide
theorem witness_WordIsTheOrOfTheContributions : opcLookup (ascii "MOV") = some .mov ∧
    OperandsAccepted defaultParams [ascii "GRF_A1", ascii "BANK-2"] ∧
    [(ascii "BANK-2", (1 : Fin 3)), (ascii "GRF_A1", 0)].Perm (placeOperands [ascii "GRF_A1", ascii "BANK-2"]) := by
  unfold OperandsAccepted OperandAccepted
  decide
theorem witness_OpcodeBitsBelowTheBound : opcLookup (ascii "MOV") = some .mov ∧
    asm defaultParams [ascii "MOV", ascii "131071"] = .ok 0x04FFFF800 ∧
    IndicesBelow defaultParams [ascii "131071"] (2 ^ 28) := by
  unfold IndicesBelow
  decide
theorem witness_BankBitsUnderSmallIndices :
    asm defaultParams [ascii "MOV", ascii "GRF_A2047", ascii "BANK", ascii "R_IQ"] = .ok 0x04237FF00 ∧
    IndicesBelow defaultParams [ascii "GRF_A2047", ascii "BANK", ascii "R_IQ"] (2 ^ 19) ∧
    (ascii "R_IQ", (2 : Fin 3)) ∈ placeOperands [ascii "GRF_A2047", ascii "BANK", ascii "R_IQ"] ∧
    bankOf (ascii "R_IQ") = some .rIq := by
  unfold IndicesBelow
  decide
theorem witness_FlagBitOfTheWord : asmOf "MOV(AAM) GRF_A1" = .ok 0x042008900 ∧ flagDec (ascii "MOV(AAM)") = true ∧
    asmOf "MOV GRF_A7 -7" = .ok 0x042000F8F ∧ flagDec (ascii "MOV") = false ∧
    (∀ x ∈ placeOperands [ascii "GRF_A7", ascii "-7"], hasIndex defaultParams x.1 = true →
      magnitude defaultParams x.1 ≤ 7) := by decide
theorem witness_NegativeMarkerOfTheIndex : asmOf "MOV GRF_A-1" = .ok 0x042008900 ∧
    (ascii "GRF_A-1", (0 : Fin 3)) ∈ placeOperands [ascii "GRF_A-1"] ∧ hasIndex defaultParams (ascii "GRF_A-1") = true ∧
    indexShift (ascii "GRF_A-1") 0 = some 8 ∧ contains (ascii "GRF_A-1") (ascii "-") = true ∧
    asmOf "MOV GRF_A127" = .ok 0x042007F00 ∧ contains (ascii "GRF_A127") (ascii "-") = false ∧
    (magnitude defaultParams (ascii "GRF_A127")).testBit 7 = false ∧ magnitude defaultParams (ascii "GRF_A127") < 128 ∧
    (headWord .mov (ascii "MOV")).getLsbD 15 = false := by decide
theorem witness_DirectMarkerOfTheIndex : asmOf "MOV GRF_A[A7]" = .ok 0x042000700 ∧
    hasIndex defaultParams (ascii "GRF_A[A7]") = true ∧ indexShift (ascii "GRF_A[A7]") 0 = some 8 ∧
    contains (ascii "GRF_A[A7]") (ascii "[A") = true ∧ (magnitude defaultParams (ascii "GRF_A[A7]")).testBit 3 = false ∧
    (headWord .mov (ascii "MOV")).getLsbD 11 = false ∧ contains (ascii "GRF_A1") (ascii "[A") = false := by decide
theorem witness_WordBitsWithSmallMagnitudes : opcLookup (ascii "MOV") = some .mov ∧
    asmOf "MOV R_IQ-7 L_IQ-7 SRF_M-7" = .ok 0x04D608FFF ∧
    (∀ x ∈ placeOperands [ascii "R_IQ-7", ascii "L_IQ-7", ascii "SRF_M-7"], hasIndex defaultParams x.1 = true →
      magnitude defaultParams x.1 ≤ 7) := by decide
theorem witness_EncodingIsNotInjective : bankOf (ascii "BANK") = some .bank ∧
    hasIndex defaultParams (ascii "BANK") = false := by decide
theorem witness_ReservedCodesComeOnlyFromCollisions : opcLookup (ascii "NOP") = some .nop ∧
    asmOf "NOP GRF_A3145728" = .ok 0x032000800 ∧
    (0x032000800 : Word).extractLsb' 28 4 ∈ ([0b0011, 0b0110, 0b0111, 0b1101, 0b1110, 0b1111] : List (BitVec 4)) := by
  decide
theorem witness_LanesEmitInIndexOrder :
    ((LaneMachine.init defaultParams (ascii "NOP\nEXIT\n")).runSchedule 2
      [.take, .take, .finish 1, .finish 0, .emit, .emit]).drained = true := by decide
theorem witness_LanesCanAlwaysFinish : 1 ≤ (2 : Nat) ∧
    ((LaneMachine.init defaultParams (ascii "NOP\nEXIT\n")).runSchedule 2 [.take, .take, .finish 1]).drained = false := by
  decide
theorem witness_SuccessWordsEndBelowBit32 :
    asm defaultParams [ascii "SACC", ascii "GRF_A16777215"] = .ok 0x0FFFFFF00 := by decide
/-- 0x0420009A0 (95_test_vectors.md) as bytes, least significant byte first and last, and without a byte order. -/
theorem test_wordBytes :
    wordBytes { defaultParams with wordByteOrder := some [0, 1, 2, 3, 4] } 0x0420009A0 =
      some [0xA0, 0x09, 0x00, 0x42, 0x00] ∧
    wordBytes { defaultParams with wordByteOrder := some [4, 3, 2, 1, 0] } 0x0420009A0 =
      some [0x00, 0x42, 0x00, 0x09, 0xA0] ∧
    wordBytes defaultParams 0x0420009A0 = none := by decide
theorem witness_WordByteOrderChangesNoStep : goesOn movState = true ∧ goesOn fooState = true ∧
    goesOn { movState with params := { defaultParams with wordByteOrder := some [4, 3, 2, 1, 0] } } = true := by decide
theorem witness_ShiftSchedules : bankOf (ascii "X") = none := by decide

end Sys2Proof.Tests
end

section
/-! Proofs of the family of spec/30_encoding.md: the opcode map (R68), the shift schedules (R62), and the reserved codes
that index bits can make in the OPC field (R69). -/

namespace Sys2Proof.Machine

open Sys2Proof

/-! ### The opcode map -/

/-- The six codes of the OPC field that the opcode map leaves out (30_encoding.md R68). -/
def reservedCodes : List (BitVec 4) := [0b0011, 0b0110, 0b0111, 0b1101, 0b1110, 0b1111]

theorem opCode_not_mem_reservedCodes (op : Op) : op.code ∉ reservedCodes := by
  cases op <;> decide

/-- A hit gives an operation's code, and a miss gives NOP's. -/
theorem opcLut_code_not_mem_reservedCodes (m : Token) : (opcLut m).2 ∉ reservedCodes := by
  unfold opcLut
  cases opcLookup m with
  | none => exact opCode_not_mem_reservedCodes .nop
  | some op => exact opCode_not_mem_reservedCodes op

/-- Settles O28: the ten codes by evaluation, the reserved ones by the two answers of the Opcode Table. -/
theorem opcodeMap : Obligations.OpcodeMap := by
  unfold Obligations.OpcodeMap
  exact ⟨by decide, opcLut_code_not_mem_reservedCodes⟩

/-! ### The shift schedules -/

theorem not_operandAccepted_two_of_noBank {p : Params} {t : Token} (hb : bankOf t = none) :
    ¬ OperandAccepted p t 2 := by
  rintro ⟨hposition, -, -⟩
  exact hposition.elim (· hb) (· rfl)

/-- Settles O35, from the two schedules as formulas and the rejection of what is not accepted. -/
theorem shiftSchedules : Obligations.ShiftSchedules := by
  unfold Obligations.ShiftSchedules
  exact ⟨fun loc => ⟨bankShift_eq loc, bankIndexShift_eq loc⟩, rfl, rfl, rfl,
    fun _ _ hb => opndEnc_of_not_accepted (not_operandAccepted_two_of_noBank hb)⟩

/-! ### Reserved codes in the OPC field -/

/-- While every index part stays below bit 28, the OPC field of an assembled word is the operation's own code
(30_encoding.md R69, R71). -/
theorem opcField_ruledWord {p : Params} (op : Op) (m : Token) {ops : List Token} (ha : OperandsAccepted p ops)
    (hb : IndicesBelow p ops (2 ^ 28)) :
    (BitVec.ofNat 34 (ruledWord p op.code.toNat m ops)).extractLsb' 28 4 = op.code := by
  apply BitVec.eq_of_getLsbD_eq
  intro k hk
  rw [BitVec.getLsbD_extractLsb', opcode_bits op m ha hk, any_indexPart_false hb (by omega)]
  simp [hk]

/-- A successful transaction whose indices stay below bit 28 shows no reserved code. -/
theorem opcField_not_mem_reservedCodes {p : Params} {m : Token} {ops : List Token} {w : Word}
    (hw : asm p (m :: ops) = .ok w) (hb : IndicesBelow p ops (2 ^ 28)) :
    w.extractLsb' 28 4 ∉ reservedCodes := by
  obtain ⟨op, -, ha, rfl⟩ := asm_eq_ok_iff.1 hw
  rw [opcField_ruledWord op m ha hb]
  exact opCode_not_mem_reservedCodes op

/-- Settles O56: with no index part at 2^28 or above the OPC field would be an operation's code, which is never reserved;
the two words of R69 are evaluated. -/
theorem reservedCodesComeOnlyFromCollisions : Obligations.ReservedCodesComeOnlyFromCollisions := by
  unfold Obligations.ReservedCodesComeOnlyFromCollisions
  refine ⟨fun _ op _ => opCode_not_mem_reservedCodes op, ?collision, by decide, by decide, by decide, by decide⟩
  case collision =>
    intro p m ops w hw hreserved
    by_contra hnone
    have hb : IndicesBelow p ops (2 ^ 28) := fun x hx => not_le.1 fun hge => hnone ⟨x, hx, hge⟩
    exact opcField_not_mem_reservedCodes hw hb hreserved

end Sys2Proof.Machine
end

section
/-! Proofs of the family of spec/41_opcode_table.md: the ports of OPC_LUT are a first match over the table (R90). -/

namespace Sys2Proof.Machine

open Sys2Proof

theorem opcLut_of_lookup_eq_some {m : Token} {op : Op} (h : opcLookup m = some op) : opcLut m = (true, op.code) := by
  simp only [opcLut, h]

theorem opcLut_of_lookup_eq_none {m : Token} (h : opcLookup m = none) : opcLut m = (false, 0b0000) := by
  simp only [opcLut, h]

theorem opcLookup_eq_some_of_first_infix {m : Token} {pre post : List (Bytes × Op)} {pat : Bytes} {op : Op}
    (htable : opcTable = pre ++ (pat, op) :: post) (hpat : pat <:+: m) (hpre : ∀ x ∈ pre, ¬ x.1 <:+: m) :
    opcLookup m = some op :=
  (firstMatch_eq_some opcTable m op).2 ⟨pre, pat, post, htable, (contains_iff_infix m pat).2 hpat,
    fun x hx => (contains_eq_false_iff m x.1).2 (hpre x hx)⟩

theorem opcLookup_eq_none_of_no_infix {m : Token} (hmiss : ∀ x ∈ opcTable, ¬ x.1 <:+: m) : opcLookup m = none :=
  (firstMatch_eq_none opcTable m).2 fun x hx => (contains_eq_false_iff m x.1).2 (hmiss x hx)

/-- Settles O29: the two answers of the table's first-match search carried to the ports, and the bits of the opcode
contribution. -/
theorem opcodeLookupIsFirstMatch : Obligations.OpcodeLookupIsFirstMatch := by
  unfold Obligations.OpcodeLookupIsFirstMatch
  refine ⟨?hit, ?miss, getLsbD_opcodeContribution⟩
  case hit =>
    intro m pre post pat op htable hpat hpre
    exact opcLut_of_lookup_eq_some (opcLookup_eq_some_of_first_infix htable hpat hpre)
  case miss =>
    intro m hmiss
    exact opcLut_of_lookup_eq_none (opcLookup_eq_none_of_no_infix hmiss)

end Sys2Proof.Machine
end

section
/-! Proofs of the family of spec/42_flag_decoder.md: the AAM flag as an infix test and its word bit (R110). -/

namespace Sys2Proof.Machine

open Sys2Proof

theorem flagDec_iff_infix (m : Token) : flagDec m = true ↔ ascii "AAM" <:+: m ∨ ascii "(A" <:+: m := by
  rw [flagDec, Bool.or_eq_true, contains_iff_infix, contains_iff_infix]

theorem flagContribution_false : flagContribution false = 0 := by decide

theorem flagContribution_true : flagContribution true = BitVec.twoPow 34 15 := by decide

theorem getLsbD_flagContribution (aam : Bool) (k : Nat) :
    (flagContribution aam).getLsbD k = (decide (k = 15) && aam) := by
  cases aam with
  | false => rw [flagContribution_false, BitVec.ofNat_eq_ofNat, BitVec.getLsbD_zero, Bool.and_false]
  | true => rw [flagContribution_true, BitVec.getLsbD_twoPow]; simp [eq_comm]

/-- Settles O31: both substring tests as infix tests, the contribution as zero or a power of two, and R110's example. -/
theorem flagIsAamOrOpenParenA : Obligations.FlagIsAamOrOpenParenA := by
  unfold Obligations.FlagIsAamOrOpenParenA
  exact ⟨flagDec_iff_infix, getLsbD_flagContribution, by decide, by decide⟩

end Sys2Proof.Machine
end

section
/-! Proofs of the family of spec/43_operand_encoder.md: the bank table as a first match (R121), the rejected position
(R124), the bits of the index value (R126, R127), and a token without a digit (R129). -/

namespace Sys2Proof.Machine

open Sys2Proof

/-! ### The index value -/

theorem contains_minus_iff (t : Token) : contains t (ascii "-") = true ↔ 0x2D ∈ t :=
  contains_singleton t 0x2D

theorem contains_openBracketA_iff (t : Token) : contains t (ascii "[A") = true ↔ [0x5B, 0x41] <:+: t :=
  contains_iff_infix t [0x5B, 0x41]

theorem testBit_indexValue_seven (p : Params) (t : Token) :
    (indexValue p t).testBit 7 = ((magnitude p t).testBit 7 || contains t (ascii "-")) := by
  simp [testBit_indexValue]

theorem testBit_indexValue_three (p : Params) (t : Token) :
    (indexValue p t).testBit 3 = ((magnitude p t).testBit 3 || !contains t (ascii "[A")) := by
  simp [testBit_indexValue]

theorem testBit_indexValue_of_unmarked (p : Params) (t : Token) {k : Nat} (h7 : k ≠ 7) (h3 : k ≠ 3) :
    (indexValue p t).testBit k = (magnitude p t).testBit k := by
  simp [testBit_indexValue, h7, h3]

/-- Settles O42: bit 7 is the magnitude's ORed with the test for `-`, bit 3 the magnitude's ORed with the failed test
for `[A`, and no marker reaches another bit. -/
theorem indexValueBits : Obligations.IndexValueBits := by
  unfold Obligations.IndexValueBits
  intro p t _
  rw [testBit_indexValue_seven, testBit_indexValue_three, ← contains_minus_iff, ← contains_openBracketA_iff]
  refine ⟨?negative, ?notNegative, ?notDirect, ?direct, fun k => testBit_indexValue_of_unmarked p t⟩
  case negative => intro h; rw [h, Bool.or_true]
  case notNegative => intro h; rw [Bool.eq_false_of_not_eq_true h, Bool.or_false]
  case notDirect => intro h; rw [Bool.eq_false_of_not_eq_true h, Bool.not_false, Bool.or_true]
  case direct => intro h; rw [h, Bool.not_true, Bool.or_false]

/-! ### The bank table -/

theorem bankOf_eq_some_iff (t : Token) (b : Bank) : bankOf t = some b ↔
    ∃ pre pat post, bankTable = pre ++ (pat, b) :: post ∧ pat <:+: t ∧ ∀ x ∈ pre, ¬ x.1 <:+: t := by
  simp only [bankOf, firstMatch_eq_some, contains_iff_infix, contains_eq_false_iff]

theorem bankOf_eq_none_iff (t : Token) : bankOf t = none ↔ ∀ x ∈ bankTable, ¬ x.1 <:+: t := by
  simp only [bankOf, firstMatch_eq_none, contains_eq_false_iff]

theorem bankCode_ne_seven (b : Bank) : b.code ≠ 0b111 := by
  cases b <;> decide

/-- Settles O36: the seven entries by evaluation, and both answers of the first-match search as infix tests. -/
theorem bankTableIsFirstMatch : Obligations.BankTableIsFirstMatch := by
  unfold Obligations.BankTableIsFirstMatch
  exact ⟨by decide, bankOf_eq_some_iff, bankOf_eq_none_iff, bankCode_ne_seven⟩

/-! ### The rejected position -/

theorem opndEnc_two_of_noBank (p : Params) {t : Token} (hb : bankOf t = none) :
    opndEnc p t 2 = .error .invalidOperandPosition :=
  opndEnc_of_not_accepted (not_operandAccepted_two_of_noBank hb)

/-- Settles O39: without a bank loc 2 is never accepted; the two lines of R124 are evaluated. -/
theorem noBankAtLoc2Rejected : Obligations.NoBankAtLoc2Rejected := by
  unfold Obligations.NoBankAtLoc2Rejected
  exact ⟨fun p _ hb => opndEnc_two_of_noBank p hb, by decide, by decide⟩

/-! ### A token without a digit -/

theorem bankField_of_bank {t : Token} {b : Bank} (hb : bankOf t = some b) (loc : Fin 3) :
    bankField t loc = b.code.toNat <<< (25 - 3 * loc.val) := by
  simp only [bankField, hb, bankShift_eq]

theorem bankField_of_noBank {t : Token} (hb : bankOf t = none) (loc : Fin 3) : bankField t loc = 0 := by
  simp only [bankField, hb]

/-- The markers belong to the index value, so they go with it (43_operand_encoder.md R129). -/
theorem operandBits_of_noIndex {p : Params} {t : Token} (hi : hasIndex p t = false) (loc : Fin 3) :
    operandBits p t loc = bankField t loc := by
  simp [operandBits, indexPart, hi]

theorem opndEnc_ok_of_noIndex {p : Params} {t : Token} {loc : Fin 3} {f : Contribution} (hi : hasIndex p t = false)
    (hf : opndEnc p t loc = .ok f) : f = BitVec.ofNat 32 (bankField t loc) := by
  rw [(opndEnc_eq_ok_iff.1 hf).2, operandBits_of_noIndex hi]

/-- Settles O41: without an index an encoded operand's bits are its bank field, with a bank or without one; the two
operands of R129 are evaluated. -/
theorem noDigitLeavesOnlyTheBankCode : Obligations.NoDigitLeavesOnlyTheBankCode := by
  unfold Obligations.NoDigitLeavesOnlyTheBankCode
  refine ⟨?bankCode, by decide, by decide⟩
  case bankCode =>
    intro p t loc f hi hf
    rw [opndEnc_ok_of_noIndex hi hf]
    cases hb : bankOf t with
    | none => rw [bankField_of_noBank hb]
    | some b => rw [bankField_of_bank hb]

end Sys2Proof.Machine
end

section
/-! Proofs of the family of spec/44_instruction_assembler.md: which operand tokens are encoded and where (R153), and the
word as the OR of the contributions in any order (R154). -/

namespace Sys2Proof.Machine

open Sys2Proof

theorem asm_of_lookup_eq_some (p : Params) {m : Token} {op : Op} (ops : List Token) (h : opcLookup m = some op) :
    asm p (m :: ops) = assemble p op m ops := by
  simp only [asm, h]

theorem asm_of_lookup_eq_none (p : Params) {m : Token} (ops : List Token) (h : opcLookup m = none) :
    asm p (m :: ops) = .error .unknownOperation := by
  simp only [asm, h]

/-! ### Only the first three operand tokens are encoded -/

theorem assemble_take_three (p : Params) (op : Op) (m : Token) (ops : List Token) :
    assemble p op m ops = assemble p op m (ops.take 3) := by
  rw [assemble, assemble, ← placeOperands_take]

/-- Later tokens change neither the word nor the error, and a mnemonic that misses never comes to its operands
(44_instruction_assembler.md R153). -/
theorem asm_take_three (p : Params) (m : Token) (ops : List Token) : asm p (m :: ops) = asm p (m :: ops.take 3) := by
  cases h : opcLookup m with
  | none => rw [asm_of_lookup_eq_none p _ h, asm_of_lookup_eq_none p _ h]
  | some op => rw [asm_of_lookup_eq_some p _ h, asm_of_lookup_eq_some p _ h, ← assemble_take_three]

/-- Settles O44: the placed operands are the first three tokens at their positions, the Assembler sees no others, and
R153's line with EXTRA and without it is evaluated. -/
theorem extraOperandsIgnored : Obligations.ExtraOperandsIgnored := by
  unfold Obligations.ExtraOperandsIgnored
  exact ⟨fun _ _ _ => mem_placeOperands, asm_take_three, by decide, by decide⟩

/-! ### The word is an OR, so the order of the operands is free -/

/-- What a placed operand ORs onto the word; nothing where it raises (44_instruction_assembler.md R154). -/
def placedContribution (p : Params) (x : Token × Fin 3) : Word :=
  match opndEnc p x.1 x.2 with
  | .ok f => f.setWidth 34
  | .error _ => 0

theorem placedContribution_of_ok {p : Params} {x : Token × Fin 3} {f : Contribution} (h : opndEnc p x.1 x.2 = .ok f) :
    placedContribution p x = f.setWidth 34 := by
  simp only [placedContribution, h]

theorem orOperands_cons_of_ok {p : Params} {x : Token × Fin 3} {f : Contribution} (h : opndEnc p x.1 x.2 = .ok f)
    (rest : List (Token × Fin 3)) (w : Word) :
    orOperands p (x :: rest) w = orOperands p rest (w ||| f.setWidth 34) := by
  rw [orOperands, h]

/-- OR the contributions of placed operands onto a word, in the order of the list. -/
def orContributions (p : Params) (l : List (Token × Fin 3)) (w : Word) : Word :=
  l.foldl (fun w x => w ||| placedContribution p x) w

theorem orOperands_eq_orContributions {p : Params} {l : List (Token × Fin 3)} (w : Word)
    (h : ∀ x ∈ l, OperandAccepted p x.1 x.2) : orOperands p l w = .ok (orContributions p l w) := by
  induction l generalizing w with
  | nil => rfl
  | cons x rest ih =>
    obtain ⟨hx, hrest⟩ := List.forall_mem_cons.1 h
    have hok := opndEnc_of_accepted hx
    rw [orOperands_cons_of_ok hok, ih _ hrest, orContributions, orContributions, List.foldl_cons,
      placedContribution_of_ok hok]

/-- OR is commutative and associative, so two neighbouring operands may change places. -/
theorem orContributions_perm (p : Params) {l l' : List (Token × Fin 3)} (h : l.Perm l') (w : Word) :
    orContributions p l w = orContributions p l' w :=
  h.foldl_eq' (fun x _ y _ z => by rw [BitVec.or_assoc, BitVec.or_assoc, BitVec.or_comm (placedContribution p x)]) w

theorem asm_eq_orContributions {p : Params} {m : Token} {ops : List Token} {op : Op} (hop : opcLookup m = some op)
    (ha : OperandsAccepted p ops) : asm p (m :: ops) = .ok (orContributions p (placeOperands ops) (headWord op m)) := by
  rw [asm_of_lookup_eq_some p ops hop, assemble, orOperands_eq_orContributions _ ha]

/-- Settles O47: with accepted operands the Assembler's loop is a fold of ORs, which every permutation leaves as it is. -/
theorem wordIsTheOrOfTheContributions : Obligations.WordIsTheOrOfTheContributions := by
  unfold Obligations.WordIsTheOrOfTheContributions
  intro p m ops op hop ha l hl
  calc asm p (m :: ops) = .ok (orContributions p (placeOperands ops) (headWord op m)) := asm_eq_orContributions hop ha
    _ = .ok (orContributions p l (headWord op m)) := by rw [orContributions_perm p hl]

end Sys2Proof.Machine
end

section
/-! Proofs of the family of spec/45_batch_translator.md: a line with no tokens is a line like any other (R174). -/

namespace Sys2Proof.Machine

open Sys2Proof

theorem asm_nil (p : Params) : asm p [] = .error .unknownOperation := rfl

theorem isSeparator_eq_true_iff (ws : List Byte) (b : Byte) : isSeparator ws b = true ↔ b ∈ ws :=
  List.contains_iff_mem

theorem lineRecord_of_asm_error {p : Params} {line : Bytes} {e : EncodeError} (idx : Nat)
    (h : asm p (tokens p line) = .error e) : lineRecord p idx line = ⟨idx, .err e (message p e line), line⟩ := by
  rw [lineRecord, h, recordResult]

/-- Settles O7: a line of separators has no token, ASM of the empty list is an error, and the step emits the line's
record as it does for every line. -/
theorem blankLineTakesItsIndex : Obligations.BlankLineTakesItsIndex := by
  unfold Obligations.BlankLineTakesItsIndex
  intro s line after hrun hread hline hidx hsink hblank
  have htokens : tokens s.params line = [] :=
    tokens_of_separators fun b hb => (isSeparator_eq_true_iff _ b).2 (hblank b hb)
  have hrecord : lineRecord s.params s.idx line =
      ⟨s.idx, .err .unknownOperation (message s.params .unknownOperation line), line⟩ :=
    lineRecord_of_asm_error s.idx (by rw [htokens, asm_nil])
  exact ⟨htokens, asm_nil _, _, step_emits hrun hread hline hidx hsink, rfl, rfl, by rw [← hrecord]; rfl⟩

end Sys2Proof.Machine
end

section
/-! Proofs about lines and instructions: decoding and encoding agree (30_encoding.md R74, 45_batch_translator.md R184),
tokens are the maximal runs (00_scope.md R12), and line framing (45_batch_translator.md R171). -/

namespace Sys2Proof.Machine

open Sys2Proof

/-! ### Decoding and encoding -/

theorem encode_eq_joinLexemes (i : Instr) : encode i = joinLexemes (i.src.mnemonic :: i.src.operands, i.src.trail) :=
  text_eq_joinLexemes i.src

/-- A well-formed instruction is a cut line without LF whose mnemonic selects the constructor. -/
theorem wf_iff (p : Params) (i : Instr) :
    i.wf p = true ↔ GoodCut p.wsSet (i.src.mnemonic :: i.src.operands, i.src.trail) ∧ lf ∉ i.src.text ∧
      opcLookup i.src.mnemonic.tok = some i.op := by
  have hlf : i.src.noLineFeed = true ↔ lf ∉ i.src.text := by
    simp only [SourceLine.noLineFeed, List.all_eq_true, bne_iff_ne, ne_eq]
    exact ⟨fun h hmem => h lf hmem rfl, fun h b hb heq => h (heq ▸ hb)⟩
  rw [Instr.wf, Bool.and_eq_true, Bool.and_eq_true, Bool.and_eq_true, hlf, goodCut_iff, Instr.mnemonicSelects,
    beq_iff_eq, and_assoc]

/-- Settles O21: cutting the joined bytes of a good cut gives the cut back, and the mnemonic selects the operation. -/
theorem decodeEncodeRoundTrip : Obligations.DecodeEncodeRoundTrip := by
  unfold Obligations.DecodeEncodeRoundTrip
  intro p i hwf
  obtain ⟨hcut, -, hop⟩ := (wf_iff p i).1 hwf
  rw [decode_eq_ok_iff, encode_eq_joinLexemes]
  exact ⟨splitLine_joinLexemes _ _ hcut, hop⟩

/-- Settles O22: cutting a line loses no byte, and what it gives is a good cut. -/
theorem decodedLineIsKeptVerbatim : Obligations.DecodedLineIsKeptVerbatim := by
  unfold Obligations.DecodedLineIsKeptVerbatim
  intro p line i hdecode
  obtain ⟨hsplit, hop⟩ := decode_eq_ok_iff.1 hdecode
  have htext : i.src.text = line := text_of_decode hdecode
  refine ⟨htext, tokens_of_decode hdecode, hop, fun hlf => (wf_iff p i).2 ⟨?goodCut, htext ▸ hlf, hop⟩⟩
  case goodCut => exact hsplit ▸ goodCut_splitLine p.wsSet line

/-! ### Tokens -/

theorem isSeparator_eq_false_iff (ws : List Byte) (b : Byte) : isSeparator ws b = false ↔ b ∉ ws := by
  rw [← isSeparator_eq_true_iff, Bool.not_eq_true]

/-- Settles O20: the witnesses are the parts the line is cut into. -/
theorem tokensAreTheMaximalRuns : Obligations.TokensAreTheMaximalRuns := by
  unfold Obligations.TokensAreTheMaximalRuns
  intro p line
  obtain ⟨hgood, hsep, htrail⟩ := goodCut_splitLine p.wsSet line
  simp only [GoodLexeme, isSeparator_eq_true_iff, isSeparator_eq_false_iff] at hgood htrail
  exact ⟨_, _, (joinLexemes_splitLine p.wsSet line).symm, rfl, hgood, hsep, htrail⟩

/-! ### Line framing -/

theorem readLine_of_ne_nil {stream : Bytes} (h : stream ≠ []) : readLine stream = some (cutLine stream) := by
  simp [readLine, h]

/-- Settles O23: the three ways a line ends, each from where the stream is cut, and the example by evaluation. -/
theorem lineFraming : Obligations.LineFraming := by
  unfold Obligations.LineFraming
  refine ⟨rfl, rfl, fun line rest hlf => ⟨?crLf, ?bareLf, ?atEnd⟩, fun _ _ _ => streamLines_of_readLine, by decide⟩
  case crLf => rw [readLine_of_ne_nil (by simp), cutLine_crlf line rest hlf]
  case bareLf => intro hcr; rw [readLine_of_ne_nil (by simp), cutLine_lf line rest hlf hcr]
  case atEnd => intro hne; rw [readLine_of_ne_nil hne, cutLine_eof line hlf]

end Sys2Proof.Machine
end

section
/-! Proofs about the run (45_batch_translator.md §2, §4): the invariant, IDX and the records, the streams, the exits and
the refusals, and the one parameter no step reads. -/

namespace Sys2Proof.Machine

open Sys2Proof

/-! ### The invariant, phase by phase -/

theorem machineInv_start {s : State} (h : s.phase = .start) : MachineInv s ↔ s.sink.records = [] := by
  simp only [MachineInv, h]

theorem machineInv_running {s : State} (h : s.phase = .running) :
    MachineInv s ↔ s.source.handle = .held ∧ s.sink.handle = .held ∧ s.idx = s.sink.records.length ∧
      RecordsRight s.params s.sink.records := by
  simp only [MachineInv, h]

theorem machineInv_finished {s : State} (h : s.phase = .finished) :
    MachineInv s ↔ s.source.handle ≠ .held ∧ s.sink.handle ≠ .held ∧ s.idx = s.sink.records.length ∧
      RecordsRight s.params s.sink.records := by
  simp only [MachineInv, h]

theorem machineInv_aborted {s : State} (h : s.phase = .aborted) :
    MachineInv s ↔ s.source.handle ≠ .held ∧ s.sink.handle ≠ .held ∧ s.sink.records = [] := by
  simp only [MachineInv, h]

theorem recordsRight_nil (p : Params) : RecordsRight p [] := by simp [RecordsRight]

/-- The line's record takes the index that the number of records is, so the records stay right. -/
theorem machineInv_afterLine {s : State} (hrun : s.phase = .running) (hinv : MachineInv s) (line after : Bytes)
    (q : Ports) :
    MachineInv ((s.consumeTo after).afterRecord (lineRecord s.params s.idx line) q) := by
  obtain ⟨hsource, hsink, hidx, hright⟩ := (machineInv_running hrun).1 hinv
  rw [machineInv_running (by simpa using hrun)]
  refine ⟨hsource, hsink, ?count, ?right⟩
  case count => simp [hidx]
  case right => rw [hidx]; exact recordsRight_append hright line

/-- Settles O9: the reset state stands before a run and has no record. -/
theorem invariantHoldsAtReset : Obligations.InvariantHoldsAtReset :=
  (machineInv_start State.reset_phase).2 rfl

/-- Settles O10, by the four things a step can do: start, abort, emit a line's record, return. -/
theorem stepKeepsTheInvariant : Obligations.StepKeepsTheInvariant := by
  unfold Obligations.StepKeepsTheInvariant
  intro s t hinv hstep
  obtain ⟨-, hsource, hsink, rfl⟩ | ⟨-, -, rfl⟩ | ⟨hrun, -, line, after, -, -, -, rfl⟩ | ⟨hrun, -, rfl⟩ :=
    step_next_cases hstep
  · exact (machineInv_running rfl).2 ⟨hsource, hsink, rfl, recordsRight_nil _⟩
  · exact (machineInv_aborted rfl).2 ⟨release_ne_held _, release_ne_held _, rfl⟩
  · exact machineInv_afterLine hrun hinv line after _
  · obtain ⟨-, -, hidx, hright⟩ := (machineInv_running hrun).1 hinv
    exact (machineInv_finished rfl).2 ⟨release_ne_held _, release_ne_held _, hidx, hright⟩

/-! ### What a step answers, by where the run stands -/

/-- A step that reads a line and goes on has emitted the line's record. -/
theorem step_next_of_line {s t : State} {line after : Bytes} (hrun : s.phase = .running)
    (hread : readLine s.source.unread = some (line, after)) (hstep : step s = .next t) :
    t = (s.consumeTo after).afterRecord (lineRecord s.params s.idx line)
      (encoderPorts s.params (tokens s.params line)) := by
  obtain ⟨h, -⟩ | ⟨h, -⟩ | ⟨-, -, line', after', hread', -, -, rfl⟩ | ⟨-, h, -⟩ := step_next_cases hstep
  · rw [hrun] at h; cases h
  · rw [hrun] at h; cases h
  · rw [hread] at hread'; cases hread'; rfl
  · rw [hread] at h; cases h

theorem step_next_of_eof {s t : State} (hrun : s.phase = .running) (hread : readLine s.source.unread = none)
    (hstep : step s = .next t) : t = { s.releaseStreams with phase := .finished, ports := none } := by
  rw [step_eof hrun hread, finishRun] at hstep
  cases hstep
  rfl

/-- Within the bounds, a step on a line is the emission of the line's record. -/
theorem step_eq_emitRecord {s : State} {line after : Bytes} (hrun : s.phase = .running)
    (hread : readLine s.source.unread = some (line, after)) (hline : lineFits s.params line = true)
    (hidx : indexFits s.params s.idx = true) :
    step s = emitRecord (lineRecord s.params s.idx line) (encoderPorts s.params (tokens s.params line))
      (s.consumeTo after) := by
  rw [step_line hrun hread]
  exact translateLine_exec (s := s.consumeTo after) hline hidx

theorem emitRecord_of_failing {s : State} (hfail : s.sink.failing = true) (r : Record) (q : Ports) :
    emitRecord r q s = .fault .outputFailure := by
  rw [emitRecord, if_pos hfail]

/-! ### The start of a run and its exits -/

/-- With both streams held the head of RUN enters the loop at IDX 0 with no record. -/
theorem step_enters_loop {s : State} (hstart : s.phase = .start) (hsource : s.source.handle = .held)
    (hsink : s.sink.handle = .held) :
    ∃ t, step s = .next t ∧ t.phase = .running ∧ t.idx = 0 ∧ t.sink.records = [] ∧ t.source = s.source ∧
      t.sink.failing = s.sink.failing ∧ t.params = s.params :=
  ⟨_, step_start_held hstart hsource hsink, rfl, rfl, rfl, rfl, rfl, rfl⟩

/-- Settles O1: the head of RUN sets IDX and the records, and a next step on the first line appends that line's record. -/
theorem startOfRunZeroesIndexAndRecords : Obligations.StartOfRunZeroesIndexAndRecords := by
  unfold Obligations.StartOfRunZeroesIndexAndRecords
  refine ⟨rfl, rfl, rfl, fun s hstart hsource hsink => ?_⟩
  obtain ⟨t, hstep, hrun, hidx, hnone, hsource', -, -⟩ := step_enters_loop hstart hsource hsink
  refine ⟨t, hstep, hrun, hidx, hnone, hsource', fun line after u hread hnext => ?firstLine⟩
  case firstLine =>
    obtain rfl := step_next_of_line hrun (hsource' ▸ hread) hnext
    exact ⟨lineRecord t.params t.idx line, by simp [hnone], hidx, rfl⟩

/-- Settles O2: the head of RUN without both streams, and the fault of the aborted phase after it. -/
theorem runAbortsBeforeAnyLine : Obligations.RunAbortsBeforeAnyLine := by
  unfold Obligations.RunAbortsBeforeAnyLine
  intro s hstart hclosed
  exact ⟨_, step_start_not_held hstart hclosed, rfl, rfl, rfl, rfl, rfl, step_aborted rfl⟩

/-- Settles O3, by the four things a step can do. -/
theorem streamsReleasedOnEveryExit : Obligations.StreamsReleasedOnEveryExit := by
  unfold Obligations.StreamsReleasedOnEveryExit
  intro s t hstep
  obtain ⟨-, -, -, rfl⟩ | ⟨-, -, rfl⟩ | ⟨hrun, -, line, after, -, -, -, rfl⟩ | ⟨-, -, rfl⟩ := step_next_cases hstep
  · simp
  · simp
  · simp [hrun]
  · simp

/-- Settles O12: every instruction and every turn of the loop ends in `emitRecord`. -/
theorem outputFailureEndsTheRun : Obligations.OutputFailureEndsTheRun := by
  unfold Obligations.OutputFailureEndsTheRun
  refine ⟨fun i s hfail => ?instruction, fun s line after hrun hread hline hidx hfail => ?loopTurn⟩
  case instruction => rw [exec_eq, emitRecord_of_failing hfail]
  case loopTurn => rw [step_eq_emitRecord hrun hread hline hidx, emitRecord_of_failing (by simpa using hfail)]

/-! ### A turn of the loop -/

/-- Settles O4: within the bounds the turn dispatches on what the line decodes to. -/
theorem stepRunsTheDecodedInstruction : Obligations.StepRunsTheDecodedInstruction := by
  unfold Obligations.StepRunsTheDecodedInstruction
  intro s line after i hrun hread hline hidx hdecode
  rw [step_line hrun hread]
  simp only [translateLine, State.consumeTo_params, State.consumeTo_idx, hline, hidx, hdecode, Bool.not_true,
    Bool.false_eq_true, if_false]
  rfl

/-- Settles O5: the turn on a line is `step_emits` with its record written out; at EOF the step is `finishRun`. -/
theorem loopTurnEmitsTheLinesRecord : Obligations.LoopTurnEmitsTheLinesRecord := by
  unfold Obligations.LoopTurnEmitsTheLinesRecord
  refine ⟨fun s line after hrun hread hline hidx hsink => step_emits hrun hread hline hidx hsink, fun s hrun hend => ?eof⟩
  case eof => exact ⟨_, step_eof hrun (by rw [hend, readLine_nil]), rfl, rfl, rfl⟩

theorem asm_of_no_pattern (p : Params) {m : Token} (ops : List Token) (hmiss : ∀ x ∈ opcTable, contains m x.1 = false) :
    asm p (m :: ops) = .error .unknownOperation :=
  asm_of_lookup_eq_none p ops ((opcLookup_eq_none_iff m).2 hmiss)

/-- Settles O6: a missed mnemonic makes ASM fail, and the step emits the failure's record and ports. -/
theorem unknownMnemonicTakesUnknownOperation : Obligations.UnknownMnemonicTakesUnknownOperation := by
  unfold Obligations.UnknownMnemonicTakesUnknownOperation
  refine ⟨fun p m ops => asm_of_no_pattern p ops, fun s line after m ops hrun hread hline hidx hsink htokens hmiss => ?step⟩
  case step =>
    have hfail : asm s.params (tokens s.params line) = .error .unknownOperation :=
      htokens ▸ asm_of_no_pattern s.params ops hmiss
    refine ⟨_, step_emits hrun hread hline hidx hsink, rfl, ?ports, ?records⟩
    case ports => rw [State.afterRecord_ports, encoderPorts, hfail, htokens]; rfl
    case records => simp only [State.afterRecord_sink, State.consumeTo_sink, lineRecord_of_asm_error s.idx hfail]

/-- Settles O11, by the phase the step starts in and what the input holds. -/
theorem indexAdvancesByOnePerLine : Obligations.IndexAdvancesByOnePerLine := by
  unfold Obligations.IndexAdvancesByOnePerLine
  intro s t hstep
  refine ⟨?params, ?start, ?line, ?eof⟩
  case params =>
    obtain ⟨-, -, -, rfl⟩ | ⟨-, -, rfl⟩ | ⟨-, -, line, after, -, -, -, rfl⟩ | ⟨-, -, rfl⟩ := step_next_cases hstep
    all_goals rfl
  case start =>
    intro ht hs
    obtain ⟨-, -, -, rfl⟩ | ⟨-, -, rfl⟩ | ⟨hrun, -⟩ | ⟨hrun, -⟩ := step_next_cases hstep
    · exact ⟨rfl, rfl⟩
    · cases ht
    · rw [hs] at hrun; cases hrun
    · rw [hs] at hrun; cases hrun
  case line =>
    intro hrun line after hread
    rw [step_next_of_line hrun hread hstep]
    exact ⟨rfl, hrun, rfl, _, rfl, rfl, rfl⟩
  case eof =>
    intro hrun hread
    rw [step_next_of_eof hrun hread hstep]
    exact ⟨rfl, rfl⟩

/-- Settles O14: ports and record of a step on a line are functions of the parameters, the line and the index. -/
theorem sameLineSameResult : Obligations.SameLineSameResult := by
  unfold Obligations.SameLineSameResult
  intro s₁ s₂ t₁ t₂ line a₁ a₂ hparams hrun₁ hrun₂ hread₁ hread₂ hstep₁ hstep₂
  rw [step_next_of_line hrun₁ hread₁ hstep₁, step_next_of_line hrun₂ hread₂ hstep₂, hparams]
  exact ⟨rfl, _, _, rfl, rfl, rfl, rfl, rfl, rfl, rfl⟩

/-! ### The whole run -/

/-- The records of lines from an index on. -/
def recordsFrom (p : Params) (idx : Nat) (lines : List Bytes) : List Record :=
  lines.mapIdx fun i line => lineRecord p (idx + i) line

theorem recordsFrom_nil (p : Params) (idx : Nat) : recordsFrom p idx [] = [] := rfl

theorem recordsFrom_cons (p : Params) (idx : Nat) (line : Bytes) (lines : List Bytes) :
    recordsFrom p idx (line :: lines) = lineRecord p idx line :: recordsFrom p (idx + 1) lines := by
  simp only [recordsFrom, List.mapIdx_cons, Nat.add_zero, Nat.add_assoc, Nat.add_comm 1]

theorem sequentialRecords_eq_recordsFrom (p : Params) (input : Bytes) :
    sequentialRecords p input = recordsFrom p 0 (streamLines input) := by
  simp only [sequentialRecords, recordsFrom, Nat.zero_add]

theorem map_idx_sequentialRecords (p : Params) (input : Bytes) :
    (sequentialRecords p input).map Record.idx = List.range (streamLines input).length := by
  refine List.ext_getElem (by simp [length_sequentialRecords]) fun k _ _ => ?_
  simp [sequentialRecords]

theorem lineFits_of_unbounded {p : Params} (h : p.maxLineBytes = none) (line : Bytes) : lineFits p line = true := by
  simp only [lineFits, h]

theorem indexFits_of_unbounded {p : Params} (h : p.idxBits = none) (idx : Nat) : indexFits p idx = true := by
  simp only [indexFits, h]

/-- The loop of RUN without bounds, from any index: one step for each line left, and one that returns. -/
theorem run_loop (lines : List Bytes) : ∀ s : State, s.phase = .running → s.sink.failing = false →
    s.params.idxBits = none → s.params.maxLineBytes = none → streamLines s.source.unread = lines →
    ∃ t, core.run (lines.length + 1) s = .next t ∧ t.phase = .finished ∧ t.idx = s.idx + lines.length ∧
      t.sink.records = s.sink.records ++ recordsFrom s.params s.idx lines := by
  induction lines with
  | nil =>
    intro s hrun hsink hidx hmax hlines
    have hread : readLine s.source.unread = none := by
      rcases hr : readLine s.source.unread with _ | ⟨line, after⟩
      · rfl
      · rw [streamLines_of_readLine hr] at hlines; cases hlines
    refine ⟨_, run_succ_of_next 0 (step_eof hrun hread), rfl, rfl, ?_⟩
    simp [recordsFrom_nil]
  | cons line lines ih =>
    intro s hrun hsink hidx hmax hlines
    rcases hr : readLine s.source.unread with _ | ⟨line', after⟩
    · rw [streamLines_of_eof hr] at hlines; cases hlines
    · rw [streamLines_of_readLine hr, List.cons.injEq] at hlines
      obtain ⟨rfl, hafter⟩ := hlines
      have hstep := step_emits hrun hr (lineFits_of_unbounded hmax _) (indexFits_of_unbounded hidx _) hsink
      obtain ⟨t, ht, hphase, htidx, hrecords⟩ := ih ((s.consumeTo after).afterRecord (lineRecord s.params s.idx line')
        (encoderPorts s.params (tokens s.params line'))) hrun hsink hidx hmax hafter
      refine ⟨t, (run_succ_of_next _ hstep).trans ht, hphase, ?count, ?records⟩
      case count => rw [htidx, State.afterRecord_idx, State.consumeTo_idx, List.length_cons]; omega
      case records => simp [hrecords, recordsFrom_cons]

/-- Settles O8: one step into the loop, then the loop from index 0. -/
theorem runEmitsOneRecordPerLine : Obligations.RunEmitsOneRecordPerLine := by
  unfold Obligations.RunEmitsOneRecordPerLine
  intro s hstart hsource hsink hfail hidx hmax
  obtain ⟨u, hstep, hrun, hzero, hnone, hsource', hfail', hparams⟩ := step_enters_loop hstart hsource hsink
  obtain ⟨t, ht, hphase, htidx, hrecords⟩ := run_loop (streamLines s.source.unread) u hrun (hfail'.trans hfail)
    (by rw [hparams, hidx]) (by rw [hparams, hmax]) (by rw [hsource'])
  have hseq : t.sink.records = sequentialRecords s.params s.source.unread := by
    rw [hrecords, hnone, hparams, hzero, sequentialRecords_eq_recordsFrom, List.nil_append]
  exact ⟨t, (run_succ_of_next _ hstep).trans ht, hphase, by rw [htidx, hzero, Nat.zero_add], hseq,
    by rw [hseq, map_idx_sequentialRecords]⟩

/-! ### Bounded realizations -/

theorem step_of_long_line {s : State} {line after : Bytes} (hrun : s.phase = .running)
    (hread : readLine s.source.unread = some (line, after)) (hline : lineFits s.params line = false) :
    step s = .refused .lineTooLong := by
  rw [step_line hrun hread, translateLine, State.consumeTo_params, hline]
  rfl

theorem step_of_wide_index {s : State} {line after : Bytes} (hrun : s.phase = .running)
    (hread : readLine s.source.unread = some (line, after)) (hline : lineFits s.params line = true)
    (hidx : indexFits s.params s.idx = false) : step s = .refused .indexTooWide := by
  rw [step_line hrun hread, translateLine, State.consumeTo_params, State.consumeTo_idx, hline, hidx]
  rfl

theorem lineFits_eq_false {p : Params} {line : Bytes} {n : Nat} (h : p.maxLineBytes = some n) (hlong : n < line.length) :
    lineFits p line = false := by
  simpa only [lineFits, h, decide_eq_false_iff_not, not_le] using hlong

theorem indexFits_eq_false {p : Params} {idx n : Nat} (h : p.idxBits = some n) (hwide : 2 ^ n ≤ idx) :
    indexFits p idx = false := by
  simpa only [indexFits, h, decide_eq_false_iff_not, not_lt] using hwide

theorem emitRecord_ne_refused (r : Record) (q : Ports) (s : State) (e : Refusal) : emitRecord r q s ≠ .refused e := by
  obtain ⟨-, h⟩ | ⟨-, h⟩ := emitRecord_cases r q s
  · simp [h]
  · simp [h]

theorem startRun_ne_refused (s : State) (e : Refusal) : startRun s ≠ .refused e := by
  unfold startRun
  split
  · simp
  · simp

/-- Without bounds every step is one of those that answer a next state or a fault. -/
theorem step_ne_refused_of_unbounded {s : State} (hidx : s.params.idxBits = none) (hmax : s.params.maxLineBytes = none)
    (e : Refusal) : step s ≠ .refused e := by
  rcases hphase : s.phase with _ | _ | _ | _
  case start => rw [step_start hphase]; exact startRun_ne_refused s e
  case running =>
    rcases hread : readLine s.source.unread with _ | ⟨line, after⟩
    · rw [step_eof hphase hread]; simp [finishRun]
    · rw [step_eq_emitRecord hphase hread (lineFits_of_unbounded hmax _) (indexFits_of_unbounded hidx _)]
      exact emitRecord_ne_refused _ _ _ e
  case finished => rw [step_finished hphase]; simp
  case aborted => rw [step_aborted hphase]; simp

/-- Settles O13: the two tests that come before a line is decoded, and what is left of a step without them. -/
theorem boundedRealizationRefuses : Obligations.BoundedRealizationRefuses := by
  unfold Obligations.BoundedRealizationRefuses
  refine ⟨?line, ?index, fun s e hidx hmax => step_ne_refused_of_unbounded hidx hmax e⟩
  case line =>
    intro s line after n hrun hread hmax hlong
    exact step_of_long_line hrun hread (lineFits_eq_false hmax hlong)
  case index =>
    intro s line after n hrun hread hline hbits hwide
    exact step_of_wide_index hrun hread hline (indexFits_eq_false hbits hwide)

/-! ### WORD_BYTE_ORDER -/

/-- The parameters with another WORD_BYTE_ORDER. -/
def withByteOrder (order : Option ByteOrder) (s : State) : State :=
  { s with params := { s.params with wordByteOrder := order } }

/-- An outcome with another WORD_BYTE_ORDER in its next state. -/
def outcomeWithByteOrder (order : Option ByteOrder) :
    Host.Outcome State Fault Refusal → Host.Outcome State Fault Refusal
  | .next t => .next (withByteOrder order t)
  | .fault f => .fault f
  | .refused r => .refused r

theorem asm_wordByteOrder (p : Params) (order : Option ByteOrder) (toks : List Token) :
    asm { p with wordByteOrder := order } toks = asm p toks := by
  cases toks with
  | nil => rfl
  | cons m ops => simp only [asm, assemble_wordByteOrder]

theorem lineRecord_wordByteOrder (p : Params) (order : Option ByteOrder) (idx : Nat) (line : Bytes) :
    lineRecord { p with wordByteOrder := order } idx line = lineRecord p idx line := by
  rw [lineRecord, asm_wordByteOrder]
  rfl

theorem encoderPorts_wordByteOrder (p : Params) (order : Option ByteOrder) (toks : List Token) :
    encoderPorts { p with wordByteOrder := order } toks = encoderPorts p toks := by
  rw [encoderPorts, asm_wordByteOrder, encoderPorts]

theorem startRun_withByteOrder (order : Option ByteOrder) (s : State) :
    startRun (withByteOrder order s) = outcomeWithByteOrder order (startRun s) := by
  unfold startRun
  split
  next h => rw [if_pos (by exact h)]; rfl
  next h => rw [if_neg (by exact h)]; rfl

theorem emitRecord_withByteOrder (order : Option ByteOrder) (r : Record) (q : Ports) (s : State) :
    emitRecord r q (withByteOrder order s) = outcomeWithByteOrder order (emitRecord r q s) := by
  unfold emitRecord
  split
  next h => rw [if_pos (by exact h)]; rfl
  next h => rw [if_neg (by exact h)]; rfl

/-- A turn of the loop asks the parameters for the bounds, the tokens, the word and the message, never for the byte
order (20_memory.md R41). -/
theorem step_withByteOrder_of_line (order : Option ByteOrder) {s : State} {line after : Bytes}
    (hrun : s.phase = .running) (hread : readLine s.source.unread = some (line, after)) :
    step (withByteOrder order s) = outcomeWithByteOrder order (step s) := by
  have hrun' : (withByteOrder order s).phase = .running := hrun
  have hread' : readLine (withByteOrder order s).source.unread = some (line, after) := hread
  rcases hline : lineFits s.params line with _ | _
  · rw [step_of_long_line hrun hread hline, step_of_long_line hrun' hread' hline]; rfl
  · rcases hidx : indexFits s.params s.idx with _ | _
    · rw [step_of_wide_index hrun hread hline hidx, step_of_wide_index hrun' hread' hline hidx]; rfl
    · rw [step_eq_emitRecord hrun hread hline hidx, step_eq_emitRecord hrun' hread' hline hidx,
        ← emitRecord_withByteOrder, withByteOrder, lineRecord_wordByteOrder, encoderPorts_wordByteOrder]
      rfl

theorem step_withByteOrder (order : Option ByteOrder) (s : State) :
    step (withByteOrder order s) = outcomeWithByteOrder order (step s) := by
  rcases hphase : s.phase with _ | _ | _ | _
  case start => rw [step_start hphase, ← startRun_withByteOrder]; exact step_start hphase
  case running =>
    rcases hread : readLine s.source.unread with _ | ⟨line, after⟩
    · rw [step_eof hphase hread]; exact step_eof hphase hread
    · exact step_withByteOrder_of_line order hphase hread
  case finished => rw [step_finished hphase]; exact step_finished hphase
  case aborted => rw [step_aborted hphase]; exact step_aborted hphase

/-- Settles O59: the step commutes with changing the byte order, and only `wordBytes` takes it. -/
theorem wordByteOrderChangesNoStep : Obligations.WordByteOrderChangesNoStep := by
  unfold Obligations.WordByteOrderChangesNoStep
  refine ⟨fun s order => ?step, fun p w => ?bytes⟩
  case step =>
    refine (step_withByteOrder order s).trans ?_
    cases step s with
    | next t => rfl
    | fault f => rfl
    | refused r => rfl
  case bytes => rw [wordBytes, Option.map_eq_none_iff]

end Sys2Proof.Machine
end

section
/-! Proofs about the instructions: with accepted operands each completes with the word of the rules, else it takes
InvalidOperandPosition, and either way it changes IDX, the records and the ports only (44_instruction_assembler.md §2,
60_exceptions.md §2). -/

namespace Sys2Proof.Machine

open Sys2Proof

theorem emitRecord_of_sound {s : State} (hsink : s.sink.failing = false) (r : Record) (q : Ports) :
    emitRecord r q s = .next (s.afterRecord r q) := by
  rw [emitRecord, hsink, if_neg Bool.false_ne_true]

/-- The success of any instruction: the record and the ports of the word of the rules. -/
theorem exec_of_accepted (i : Instr) {s : State} (hsink : s.sink.failing = false)
    (ha : OperandsAccepted s.params i.src.operandTokens) :
    exec i s = .next (s.afterRecord
      ⟨s.idx, .ok (BitVec.ofNat 34 (ruledWord s.params i.op.code.toNat i.src.mnemonic.tok i.src.operandTokens)),
        i.src.text⟩
      ⟨i.src.tokens, 0,
        some (BitVec.ofNat 34 (ruledWord s.params i.op.code.toNat i.src.mnemonic.tok i.src.operandTokens))⟩) := by
  rw [exec_eq, instrResult, assemble_of_accepted i.op _ ha, emitRecord_of_sound hsink]
  rfl

/-- The failure of any instruction: the record and the ports of InvalidOperandPosition. -/
theorem exec_of_not_accepted (i : Instr) {s : State} (hsink : s.sink.failing = false)
    (hn : ¬ OperandsAccepted s.params i.src.operandTokens) :
    exec i s = .next (s.afterRecord
      ⟨s.idx, .err .invalidOperandPosition (message s.params .invalidOperandPosition i.src.text), i.src.text⟩
      ⟨i.src.tokens, 2, none⟩) := by
  rw [exec_eq, instrResult, assemble_of_not_accepted i.op _ hn, emitRecord_of_sound hsink]
  rfl

/-- Settles O15: `exec_of_accepted` for each of the three. -/
theorem controlInstructionsComplete : Obligations.ControlInstructionsComplete := by
  unfold Obligations.ControlInstructionsComplete
  intro src s hsink ha
  exact ⟨exec_of_accepted (.nop src) hsink ha, exec_of_accepted (.jump src) hsink ha,
    exec_of_accepted (.exit src) hsink ha⟩

/-- Settles O16: `exec_of_accepted` for both. -/
theorem moveInstructionsComplete : Obligations.MoveInstructionsComplete := by
  unfold Obligations.MoveInstructionsComplete
  intro src s hsink ha
  exact ⟨exec_of_accepted (.mov src) hsink ha, exec_of_accepted (.fill src) hsink ha⟩

/-- Settles O17: `exec_of_accepted` for each of the five. -/
theorem arithmeticInstructionsComplete : Obligations.ArithmeticInstructionsComplete := by
  unfold Obligations.ArithmeticInstructionsComplete
  intro src s hsink ha
  exact ⟨exec_of_accepted (.add src) hsink ha, exec_of_accepted (.mul src) hsink ha,
    exec_of_accepted (.mac src) hsink ha, exec_of_accepted (.mad src) hsink ha, exec_of_accepted (.sacc src) hsink ha⟩

/-- Settles O18: `exec_of_not_accepted`, with the state after the record written out. -/
theorem failingOperandTakesTheError : Obligations.FailingOperandTakesTheError := by
  unfold Obligations.FailingOperandTakesTheError
  intro i s hsink hn
  exact exec_of_not_accepted i hsink hn

/-- Settles O19: an instruction that goes on has emitted one record, whose result is its word or the one error. -/
theorem instructionFrame : Obligations.InstructionFrame := by
  unfold Obligations.InstructionFrame
  intro i s t hexec
  obtain ⟨-, rfl⟩ := exec_next hexec
  refine ⟨rfl, rfl, rfl, rfl, rfl, rfl, _, _, rfl, rfl, rfl, rfl, ?toks, ?agree⟩
  case toks => cases instrResult s i <;> rfl
  case agree =>
    rcases hresult : instrResult s i with e | w
    · obtain ⟨-, rfl⟩ := assemble_eq_error_iff.1 hresult
      exact .inr ⟨rfl, rfl, _, rfl⟩
    · exact .inl ⟨rfl, w, rfl, rfl⟩

end Sys2Proof.Machine
end

section
/-! Proofs about records and ports: the text of the index and of both kinds of record (45_batch_translator.md R175 to
R179), and the status codes (60_exceptions.md R191). -/

namespace Sys2Proof.Machine

open Sys2Proof

/-! ### The index text -/

theorem toNat_digitByte {d : Nat} (h : d < 10) : (digitByte d).toNat = 0x30 + d := by
  rw [digitByte, BitVec.toNat_ofNat, Nat.mod_eq_of_lt (by omega)]

theorem digitByte_ne_zero {d : Nat} (h : d < 10) (hd : d ≠ 0) : digitByte d ≠ 0x30 := by
  intro heq
  have hnat := congrArg BitVec.toNat heq
  rw [toNat_digitByte h, show (0x30 : Byte).toNat = 0x30 from rfl] at hnat
  omega

/-- The bytes, the number and the first digit of an index text, from its digits. -/
theorem decimalText_spec (n : Nat) :
    decimalText n ≠ [] ∧ (∀ b ∈ decimalText n, 0x30 ≤ b.toNat ∧ b.toNat ≤ 0x39) ∧
      decimal (digits defaultParams (decimalText n)) = n ∧ (n ≠ 0 → (decimalText n).head? ≠ some 0x30) := by
  obtain ⟨ds, hne, hlt, hdecimal, hlead, htext⟩ := decimalText_eq n
  rw [htext]
  refine ⟨by simpa using hne, ?bytes, by rw [digits_map_digitByte ds hlt, hdecimal], ?lead⟩
  case bytes =>
    intro b hb
    obtain ⟨d, hd, rfl⟩ := List.mem_map.1 hb
    have := hlt d hd
    rw [toNat_digitByte this]
    omega
  case lead =>
    intro hn
    cases ds with
    | nil => exact absurd rfl hne
    | cons d ds =>
      have hd : d ≠ 0 := by simpa using hlead hn
      simpa using digitByte_ne_zero (hlt d (by simp)) hd

/-- Settles O24: the digits of the number, and the spec's four examples by evaluation. -/
theorem indexTextIsPlainDecimal : Obligations.IndexTextIsPlainDecimal := by
  unfold Obligations.IndexTextIsPlainDecimal
  exact ⟨decimalText_spec, by decide, by decide, by decide, by decide⟩

/-! ### The record texts -/

theorem length_renderWord (w : Word) : (renderWord w).length = 34 := by
  simp [renderWord]

theorem renderWord_getElem? (w : Word) {i : Nat} (hi : i < 34) :
    (renderWord w)[i]? = some (if w.getLsbD (33 - i) then 0x31 else 0x30) := by
  simp [renderWord, hi]

/-- Settles O25: the 34 characters are `renderWord`'s. -/
theorem successRecordText : Obligations.SuccessRecordText := by
  unfold Obligations.SuccessRecordText
  exact ⟨fun _ w _ => ⟨renderWord w, rfl, length_renderWord w, fun _ hi => renderWord_getElem? w hi⟩, by decide⟩

/-- Settles O26: the rendering of an error result. -/
theorem failureRecordText : Obligations.FailureRecordText := by
  unfold Obligations.FailureRecordText
  intro idx e msg line
  rw [Record.render]
  rfl

/-! ### The ports -/

theorem encoderPorts_of_ok {p : Params} {toks : List Token} {w : Word} (h : asm p toks = .ok w) :
    encoderPorts p toks = ⟨toks, 0, some w⟩ := by
  rw [encoderPorts, h, portsOf]

theorem encoderPorts_of_error {p : Params} {toks : List Token} {e : EncodeError} (h : asm p toks = .error e) :
    encoderPorts p toks = ⟨toks, e.status, none⟩ := by
  rw [encoderPorts, h, portsOf]

/-- Settles O27: the ports of the three results of ASM, and the abort at the head of RUN, which presents none. -/
theorem statusCodes : Obligations.StatusCodes := by
  unfold Obligations.StatusCodes
  refine ⟨fun p toks => ?codes, fun s t _ hstep habort => ?abort⟩
  case codes =>
    rcases hasm : asm p toks with e | w
    · rw [encoderPorts_of_error hasm]
      cases e <;> simp [EncodeError.status]
    · rw [encoderPorts_of_ok hasm]
      simp
  case abort =>
    obtain ⟨-, -, -, rfl⟩ | ⟨-, -, rfl⟩ | ⟨hrun, -, line, after, -, -, -, rfl⟩ | ⟨-, -, rfl⟩ := step_next_cases hstep
    · rfl
    · rfl
    · rw [State.afterRecord_phase, State.consumeTo_phase, hrun] at habort; cases habort
    · rfl

end Sys2Proof.Machine
end

section
/-! Proofs about the Opcode Table and the OPC field: when each operation is selected (41_opcode_table.md R92 to R101),
what the field decodes to, and the line that stands for a word (30_encoding.md R71; log 18). -/

namespace Sys2Proof.Machine

open Sys2Proof

/-! ### First match over a table of distinct codes -/

theorem mem_codes_of_firstMatch {α : Type} {T : List (Bytes × α)} {t : Bytes} {c : α} (h : firstMatch T t = some c) :
    c ∈ T.map Prod.snd := by
  obtain ⟨pre, p, post, rfl, -⟩ := (firstMatch_eq_some T t c).1 h
  simp

/-- With distinct codes, an entry's code results exactly when its pattern is found and no earlier one is. -/
theorem firstMatch_eq_some_iff_of_nodup {α : Type} {t p : Bytes} {c : α} (T : List (Bytes × α)) :
    ∀ k, (T.map Prod.snd).Nodup → T[k]? = some (p, c) →
      (firstMatch T t = some c ↔ contains t p = true ∧ ∀ x ∈ (T.take k).map Prod.fst, ¬ contains t x = true) := by
  induction T with
  | nil => intro k _ hk; simp at hk
  | cons x T ih =>
    intro k hnodup hk
    obtain ⟨hx, hT⟩ := List.nodup_cons.1 hnodup
    cases k with
    | zero =>
      obtain rfl : x = (p, c) := by simpa using hk
      by_cases hp : contains t p = true
      · simp [firstMatch, hp]
      · simpa [firstMatch, hp] using fun h => hx (mem_codes_of_firstMatch h)
    | succ k =>
      have hk' : T[k]? = some (p, c) := by simpa using hk
      have hne : x.2 ≠ c := fun h => hx (h ▸ List.mem_map_of_mem (List.mem_of_getElem? hk'))
      by_cases hp : contains t x.1 = true
      · simp [firstMatch, hp, hne]
      · simpa [firstMatch, hp] using ih k hT hk'

theorem opcLookup_eq_some_iff (m : Token) (k : Nat) {pat : Bytes} {op : Op} (hk : opcTable[k]? = some (pat, op)) :
    opcLookup m = some op ↔
      contains m pat = true ∧ ∀ x ∈ (opcTable.take k).map Prod.fst, ¬ contains m x = true :=
  firstMatch_eq_some_iff_of_nodup opcTable k (by decide) hk

/-- Settles O30: the ten entries of the table by their places in it. -/
theorem eachOperationWinsOverLaterEntries : Obligations.EachOperationWinsOverLaterEntries := by
  unfold Obligations.EachOperationWinsOverLaterEntries
  intro m
  have entry := @opcLookup_eq_some_iff m
  exact ⟨by simpa using entry 0 rfl, by simpa [opcTable] using entry 1 rfl, entry 2 rfl, entry 3 rfl, entry 4 rfl,
    entry 5 rfl, entry 6 rfl, entry 7 rfl, entry 8 rfl, entry 9 rfl⟩

/-! ### The OPC field -/

/-- A word carries an operation when its six top bits are 00 and the operation's code. -/
theorem decodeOp_eq_some_iff (w : Word) (op : Op) :
    decodeOp w = some op ↔ w.extractLsb' 28 6 = op.code.setWidth 6 := by
  simp only [decodeOp, mask_match_iff]
  constructor
  · intro h
    simpa using List.find?_some h
  · intro h
    rw [h]
    cases op <;> decide

theorem getLsbD_ruledWord_high {p : Params} (op : Op) (m : Token) {ops : List Token} (ha : OperandsAccepted p ops)
    {k : Nat} (hk : 32 ≤ k) : (BitVec.ofNat 34 (ruledWord p op.code.toNat m ops)).getLsbD k = false := by
  rw [BitVec.getLsbD_ofNat, testBit_high (ruledWord_lt op m ha) hk, Bool.and_false]

/-- With every index part below bit 28 the six top bits are 00 and the code. -/
theorem topBits_ruledWord {p : Params} (op : Op) (m : Token) {ops : List Token} (ha : OperandsAccepted p ops)
    (hb : IndicesBelow p ops (2 ^ 28)) :
    (BitVec.ofNat 34 (ruledWord p op.code.toNat m ops)).extractLsb' 28 6 = op.code.setWidth 6 := by
  apply BitVec.eq_of_getLsbD_eq
  intro k hk
  rw [BitVec.getLsbD_extractLsb', BitVec.getLsbD_setWidth]
  by_cases hk4 : k < 4
  · rw [opcode_bits op m ha hk4, any_indexPart_false hb (by omega), Bool.or_false]
  · rw [getLsbD_ruledWord_high op m ha (by omega), BitVec.getLsbD_of_ge op.code k (by omega), Bool.and_false]

/-- Settles O32: the six top bits decide the decode, and an assembled word's are known. -/
theorem opcodeFieldDecodes : Obligations.OpcodeFieldDecodes := by
  unfold Obligations.OpcodeFieldDecodes
  refine ⟨decodeOp_eq_some_iff, fun p m ops w hw => ?_⟩
  obtain ⟨op, hop, ha, rfl⟩ := asm_eq_ok_iff.1 hw
  refine ⟨fun hb => ?decode, fun op' hop' k hk => ?field⟩
  case decode => rw [hop, decodeOp_eq_some_iff, topBits_ruledWord op m ha hb]
  case field =>
    obtain rfl : op = op' := Option.some.inj (hop.symm.trans hop')
    exact opcode_bits op m ha hk

/-- Settles O34: seven evaluations. -/
theorem writtenOutWordsDecode : Obligations.WrittenOutWordsDecode := by
  unfold Obligations.WrittenOutWordsDecode
  exact ⟨by decide, by decide, by decide, by decide, by decide, by decide, by decide⟩

end Sys2Proof.Machine
end

section
/-! Proofs about operands: when one is encoded and to what (43_operand_encoder.md R128 to R132), the width limit (R131) and
the saturating accumulator (R140). -/

namespace Sys2Proof.Machine

open Sys2Proof

/-! ### The contribution -/

theorem indexPart_of_shift {p : Params} {t : Token} {loc : Fin 3} {s : Nat} (hs : indexShift t loc = some s) :
    indexPart p t loc = if hasIndex p t then indexValue p t <<< s else 0 := by
  rw [indexPart, hs, Option.getD_some]

theorem indexShift_of_bank {t : Token} {b : Bank} (hb : bankOf t = some b) (loc : Fin 3) :
    indexShift t loc = some (8 - 4 * loc.val) := by
  simp only [indexShift, hb, bankIndexShift_eq]

theorem indexShift_of_noBank {t : Token} {loc : Fin 3} (hb : bankOf t = none) (hloc : loc ≠ 2) :
    indexShift t loc = some (11 - 11 * loc.val) := by
  simp only [indexShift, hb]
  fin_cases loc
  · rfl
  · rfl
  · exact absurd rfl hloc

/-- Settles O37: an accepted operand contributes its bits, and each schedule puts them at its places. -/
theorem operandContribution : Obligations.OperandContribution := by
  unfold Obligations.OperandContribution
  intro p t loc
  refine ⟨opndEnc_of_not_accepted, fun ha => ⟨_, opndEnc_of_accepted ha, fun b hb => ?bank, fun hb => ?noBank⟩⟩
  all_goals rw [BitVec.toNat_ofNat, Nat.mod_eq_of_lt (operandBits_lt ha), operandBits]
  case bank => rw [bankField_of_bank hb, indexPart_of_shift (indexShift_of_bank hb loc)]
  case noBank =>
    have hloc : loc ≠ 2 := fun h => not_operandAccepted_two_of_noBank hb (h ▸ ha)
    rw [bankField_of_noBank hb, indexPart_of_shift (indexShift_of_noBank hb hloc), Nat.zero_or]

/-! ### The width limit -/

theorem opndEnc_error_iff_magnitude {p : Params} {t : Token} {loc : Fin 3} {s : Nat} (hi : hasIndex p t = true)
    (hs : indexShift t loc = some s) :
    opndEnc p t loc = .error .invalidOperandPosition ↔ 2 ^ (32 - s) ≤ magnitude p t := by
  rw [opndEnc_error_iff_wide hi hs, magnitudeLimit_eq hs]

theorem opndEnc_error_iff_shifted {p : Params} {t : Token} {loc : Fin 3} {s : Nat} (hi : hasIndex p t = true)
    (hs : indexShift t loc = some s) :
    opndEnc p t loc = .error .invalidOperandPosition ↔ 2 ^ 32 ≤ indexValue p t <<< s := by
  rw [opndEnc_error_iff_wide hi hs, ← not_lt, ← index_shifted_lt_iff p hs, not_lt]

/-- Settles O38: the width check on the shifted value and on the magnitude, then at each schedule's shifts. -/
theorem wideIndexRejectedAtTheLimit : Obligations.WideIndexRejectedAtTheLimit := by
  unfold Obligations.WideIndexRejectedAtTheLimit
  refine ⟨fun p t loc s hi hs => ⟨opndEnc_error_iff_shifted hi hs, opndEnc_error_iff_magnitude hi hs⟩,
    fun p t hi hbank => ?bank, fun p t hi hb => ?noBank, by decide, by decide⟩
  case bank =>
    obtain ⟨b, hb⟩ := Option.ne_none_iff_exists'.1 hbank
    exact ⟨opndEnc_error_iff_magnitude hi (indexShift_of_bank hb 0),
      opndEnc_error_iff_magnitude hi (indexShift_of_bank hb 1),
      opndEnc_error_iff_magnitude hi (indexShift_of_bank hb 2)⟩
  case noBank =>
    exact ⟨opndEnc_error_iff_magnitude hi (indexShift_of_noBank hb (by decide)),
      opndEnc_error_iff_magnitude hi (indexShift_of_noBank hb (by decide))⟩

/-! ### The empty operand -/

/-- Without bank and digit an operand is accepted exactly at loc 0 or 1 under the policy ignore. -/
theorem operandAccepted_of_empty {p : Params} {t : Token} (loc : Fin 3) (hb : bankOf t = none)
    (hi : hasIndex p t = false) : OperandAccepted p t loc ↔ loc ≠ 2 ∧ p.emptyOperand = .ignore := by
  simp [OperandAccepted, hb, hi]

theorem operandBits_of_empty {p : Params} {t : Token} (loc : Fin 3) (hb : bankOf t = none)
    (hi : hasIndex p t = false) : operandBits p t loc = 0 := by
  rw [operandBits_of_noIndex hi, bankField_of_noBank hb]

/-- Settles O40: the policy and the position decide whether an empty operand is accepted. -/
theorem emptyOperandPolicy : Obligations.EmptyOperandPolicy := by
  unfold Obligations.EmptyOperandPolicy
  refine ⟨fun p t loc hb hi => ?policy, rfl, by decide⟩
  have haccepted := operandAccepted_of_empty loc hb hi
  refine ⟨fun hloc hp => ?ignored, fun _ hp => ?rejected, fun hloc => ?position⟩
  case ignored => rw [opndEnc_of_accepted (haccepted.2 ⟨hloc, hp⟩), operandBits_of_empty loc hb hi]; rfl
  case rejected => exact opndEnc_of_not_accepted fun h => by simp [hp] at haccepted; exact haccepted h
  case position => exact opndEnc_of_not_accepted fun h => (haccepted.1 h).1 hloc

/-! ### The saturating accumulator -/

theorem saturatingDecimal_eq_min (ds : List Nat) : saturatingDecimal ds = min (decimal ds) (2 ^ 32) :=
  saturatingDecimal_foldl ds 0 0 rfl

/-- Settles O43: the accumulator is the number cut off at 2^32, which no limit exceeds. -/
theorem saturatingAccumulatorIsExact : Obligations.SaturatingAccumulatorIsExact := by
  unfold Obligations.SaturatingAccumulatorIsExact
  refine ⟨fun ds => ?exact, fun p t loc s hs => ?verdict⟩
  case exact => rw [saturatingDecimal_eq_min]; omega
  case verdict =>
    have hlimit : 2 ^ (32 - s) ≤ 2 ^ 32 := Nat.pow_le_pow_right (by omega) (by omega)
    rw [saturatingDecimal_eq_min, le_min_iff, and_iff_left hlimit, ← not_lt (b := 2 ^ 32), index_shifted_lt_iff p hs,
      magnitudeLimit_eq hs, not_lt, magnitude]

end Sys2Proof.Machine
end

section
/-! Proofs about the Assembler: which error decides (44_instruction_assembler.md R155, R156), the fields of an assembled
word (§3; 30_encoding.md R66), and lines with the same word (R67). -/

namespace Sys2Proof.Machine

open Sys2Proof

/-! ### The order of errors -/

theorem map_loc_placeOperands (ops : List Token) :
    (placeOperands ops).map (fun x => x.2.val) = List.range (min ops.length 3) := by
  rw [placeOperands_take, Nat.min_comm, ← List.length_take]
  rcases ops with _ | ⟨a, _ | ⟨b, _ | ⟨c, rest⟩⟩⟩ <;> rfl

theorem orOperands_of_first_error {p : Params} {t : Token} {loc : Fin 3} {e : EncodeError}
    {pre post : List (Token × Fin 3)} (hpre : ∀ x ∈ pre, ∃ f, opndEnc p x.1 x.2 = .ok f)
    (herr : opndEnc p t loc = .error e) (w : Word) : orOperands p (pre ++ (t, loc) :: post) w = .error e := by
  induction pre generalizing w with
  | nil => rw [List.nil_append, orOperands, herr]
  | cons x pre ih =>
    obtain ⟨⟨f, hf⟩, hrest⟩ := List.forall_mem_cons.1 hpre
    rw [List.cons_append, orOperands_cons_of_ok hf, ih hrest]

/-- Settles O45: the positions in order, and the Assembler's loop up to the first error. -/
theorem firstFailingOperandDecides : Obligations.FirstFailingOperandDecides := by
  unfold Obligations.FirstFailingOperandDecides
  refine ⟨map_loc_placeOperands, fun p m t ops op pre post loc e hop hplaced hpre herr => ?_⟩
  rw [asm_of_lookup_eq_some p ops hop, assemble, hplaced, orOperands_of_first_error hpre herr]

/-- Settles O46: a missed mnemonic never comes to its operands; the example by evaluation. -/
theorem mnemonicIsTestedFirst : Obligations.MnemonicIsTestedFirst := by
  unfold Obligations.MnemonicIsTestedFirst
  exact ⟨fun p _ _ ops _ _ hmiss _ _ => asm_of_lookup_eq_none p ops hmiss, by decide, by decide⟩

/-! ### Bits 33:32 and the opcode -/

/-- What a successful transaction says when the mnemonic's operation is known. -/
theorem asm_ok_of_lookup {p : Params} {m : Token} {ops : List Token} {op : Op} {w : Word} (hop : opcLookup m = some op)
    (hw : asm p (m :: ops) = .ok w) :
    OperandsAccepted p ops ∧ w = BitVec.ofNat 34 (ruledWord p op.code.toNat m ops) := by
  rw [asm_of_lookup_eq_some p ops hop] at hw
  exact assemble_eq_ok_iff.1 hw

theorem opcodeContribution_lt (c : BitVec 4) : (opcodeContribution c).toNat < 2 ^ 32 := by
  refine Nat.lt_pow_two_of_testBit _ fun k hk => ?_
  rw [BitVec.testBit_toNat, getLsbD_opcodeContribution, BitVec.getLsbD_of_ge c _ (by omega), Bool.and_false]

theorem flagContribution_lt (aam : Bool) : (flagContribution aam).toNat < 2 ^ 32 := by
  cases aam <;> decide

theorem bankCode_le_six (b : Bank) : b.code.toNat ≤ 6 := by
  cases b <;> decide

theorem bankField_le (t : Token) (loc : Fin 3) : bankField t loc ≤ 6 <<< 25 := by
  rcases hb : bankOf t with _ | b
  · rw [bankField_of_noBank hb]; exact Nat.zero_le _
  · rw [bankField_of_bank hb, Nat.shiftLeft_eq, Nat.shiftLeft_eq]
    exact Nat.mul_le_mul (bankCode_le_six b) (Nat.pow_le_pow_right (by omega) (by omega))

/-- Settles O48: an assembled word has no bit from 32 up. -/
theorem successWordsEndBelowBit32 : Obligations.SuccessWordsEndBelowBit32 := by
  unfold Obligations.SuccessWordsEndBelowBit32
  refine ⟨fun p toks w hw => ?word, opcodeContribution_lt, flagContribution_lt, bankField_le⟩
  case word =>
    cases toks with
    | nil => rw [asm_nil] at hw; cases hw
    | cons m ops =>
      obtain ⟨op, -, ha, rfl⟩ := asm_eq_ok_iff.1 hw
      apply BitVec.eq_of_getLsbD_eq
      intro k hk
      rw [BitVec.getLsbD_extractLsb', getLsbD_ruledWord_high op m ha (by omega), Bool.and_false, BitVec.ofNat_eq_ofNat,
        BitVec.getLsbD_zero]

/-- Settles O49: the OPC field of an assembled word, and the counter-example by evaluation. -/
theorem opcodeBitsBelowTheBound : Obligations.OpcodeBitsBelowTheBound := by
  unfold Obligations.OpcodeBitsBelowTheBound
  refine ⟨fun p m ops op w hop hw hb => ?field, 0x0FFFFF800, by decide, by decide⟩
  case field =>
    obtain ⟨ha, rfl⟩ := asm_ok_of_lookup hop hw
    exact opcField_ruledWord op m ha hb

/-! ### The bank bits -/

/-- The bank code that belongs at a position: its operand's, 0 without an operand or a bank (30_encoding.md R66). -/
def bankCodeAt (ops : List Token) (loc : Fin 3) : BitVec 3 :=
  match ops[loc.val]? with
  | none => 0
  | some t => match bankOf t with
    | none => 0
    | some b => b.code

theorem bankCodeAt_of_bank {ops : List Token} {t : Token} {loc : Fin 3} {b : Bank} (hx : (t, loc) ∈ placeOperands ops)
    (hb : bankOf t = some b) : bankCodeAt ops loc = b.code := by
  simp only [bankCodeAt, mem_placeOperands.1 hx, hb]

theorem getLsbD_bankCodeAt (ops : List Token) (loc : Fin 3) (j : Nat) :
    (bankCodeAt ops loc).getLsbD j =
      (ops[loc.val]?).elim false fun t => (bankOf t).elim false fun b => b.code.getLsbD j := by
  unfold bankCodeAt
  rcases ops[loc.val]? with _ | t
  · simp
  · rcases hbank : bankOf t with _ | b <;> simp [hbank]

theorem bankField_ruledWord {p : Params} (op : Op) (m : Token) {ops : List Token} (ha : OperandsAccepted p ops)
    (hb : IndicesBelow p ops (2 ^ 19)) (loc : Fin 3) :
    (BitVec.ofNat 34 (ruledWord p op.code.toNat m ops)).extractLsb' (25 - 3 * loc.val) 3 = bankCodeAt ops loc := by
  apply BitVec.eq_of_getLsbD_eq
  intro j hj
  rw [BitVec.getLsbD_extractLsb', bank_bits op m ha hb loc hj, getLsbD_bankCodeAt, decide_eq_true hj, Bool.true_and]

/-- Settles O50: the bank bits of the position where the operand stands; the counter-example by evaluation. -/
theorem bankBitsUnderSmallIndices : Obligations.BankBitsUnderSmallIndices := by
  unfold Obligations.BankBitsUnderSmallIndices
  refine ⟨fun p m t ops loc b w hw hb hx hbank => ?field, by decide, by decide, by decide⟩
  case field =>
    obtain ⟨op, -, ha, rfl⟩ := asm_eq_ok_iff.1 hw
    rw [bankField_ruledWord op m ha hb loc, bankCodeAt_of_bank hx hbank]

/-! ### The flag bit -/

theorem getLsbD_fifteen_ruledWord {p : Params} (op : Op) (m : Token) {ops : List Token} (ha : OperandsAccepted p ops) :
    (BitVec.ofNat 34 (ruledWord p op.code.toNat m ops)).getLsbD 15 =
      (flagDec m || (placeOperands ops).any fun x => (operandBits p x.1 x.2).testBit 15) := by
  rw [getLsbD_ruledWord op m ha]
  simp

/-- With small magnitudes no operand sets bit 15 unless operand 0 names a bank and has both a `-` and a digit. -/
theorem no_bit15_iff {p : Params} {ops : List Token} (ha : OperandsAccepted p ops)
    (hsmall : ∀ t loc, (t, loc) ∈ placeOperands ops → hasIndex p t = true → magnitude p t ≤ 7) :
    (∀ x ∈ placeOperands ops, ¬ (operandBits p x.1 x.2).testBit 15 = true) ↔
      ∀ t, ops[0]? = some t → bankOf t ≠ none → contains t (ascii "-") = false ∨ hasIndex p t = false := by
  constructor
  · intro h t ht hbank
    have hx : (t, (0 : Fin 3)) ∈ placeOperands ops := mem_placeOperands.2 ht
    have hbit := h _ hx
    rw [bit15_small (ha _ hx) (hsmall t 0 hx)] at hbit
    by_contra hc
    simp only [not_or, Bool.not_eq_false] at hc
    exact hbit ⟨rfl, hbank, hc.1, hc.2⟩
  · rintro h ⟨t, loc⟩ hx hbit
    obtain ⟨rfl, hbank, hminus, hi⟩ := (bit15_small (ha _ hx) (hsmall t loc hx)).1 hbit
    rcases h t (mem_placeOperands.1 hx) hbank with hc | hc
    · rw [hminus] at hc; cases hc
    · rw [hi] at hc; cases hc

/-- Settles O51: bit 15 is the flag ORed with the operands' bits 15, whose only small source is operand 0's marker. -/
theorem flagBitOfTheWord : Obligations.FlagBitOfTheWord := by
  unfold Obligations.FlagBitOfTheWord
  refine ⟨fun p m ops w hw => ?word, 0x042008900, by decide, by decide, by decide⟩
  case word =>
    obtain ⟨op, -, ha, rfl⟩ := asm_eq_ok_iff.1 hw
    rw [getLsbD_fifteen_ruledWord op m ha]
    refine ⟨fun hflag => by rw [hflag, Bool.true_or], fun hflag => ?contributions, fun hsmall hflag => ?small⟩
    all_goals rw [hflag, Bool.false_or, List.any_eq_false]
    case small => exact no_bit15_iff ha hsmall
    case contributions =>
      constructor
      · intro h t loc f hx hf
        rw [operandBits_getLsbD hf]
        simpa using h (t, loc) hx
      · intro h x hx
        have hok := opndEnc_of_accepted (ha x hx)
        rw [← operandBits_getLsbD hok, h x.1 x.2 _ hx hok]
        exact Bool.false_ne_true

/-! ### The markers -/

/-- Settles O52: bit 7 of the index value, carried to the word by `marker_bit`; the counter-examples by evaluation. -/
theorem negativeMarkerOfTheIndex : Obligations.NegativeMarkerOfTheIndex := by
  unfold Obligations.NegativeMarkerOfTheIndex
  refine ⟨fun p t _ => ?index, fun p m t ops op loc s w hop hw hx hi hs => ?word, by decide, 0x0420009A0, by decide,
    by decide⟩
  case index =>
    rw [testBit_indexValue_seven]
    refine ⟨fun h => by rw [h, Bool.or_true], fun h hbit => by rw [h, hbit, Bool.or_false], fun h hlt => ?_⟩
    rw [h, testBit_high (n := 7) hlt le_rfl, Bool.or_false]
  case word =>
    obtain ⟨ha, rfl⟩ := asm_ok_of_lookup hop hw
    obtain ⟨hset, hclear⟩ := marker_bit (m := m) (op := op) (le_refl 7) ha hx hi hs
    rw [testBit_indexValue_seven] at hset hclear
    exact ⟨fun h => hset (by rw [h, Bool.or_true]), fun h hbit => hclear (by rw [h, hbit, Bool.or_false])⟩

/-- Settles O53: bit 3 of the index value, carried to the word by `marker_bit`; the counter-example by evaluation. -/
theorem directMarkerOfTheIndex : Obligations.DirectMarkerOfTheIndex := by
  unfold Obligations.DirectMarkerOfTheIndex
  refine ⟨fun p t _ => ?index, fun p m t ops op loc s w hop hw hx hi hs => ?word, by decide⟩
  case index =>
    rw [testBit_indexValue_three]
    exact ⟨fun h => by rw [h, Bool.not_false, Bool.or_true], fun h hbit => by rw [h, hbit, Bool.not_true, Bool.or_false]⟩
  case word =>
    obtain ⟨ha, rfl⟩ := asm_ok_of_lookup hop hw
    obtain ⟨hset, hclear⟩ := marker_bit (m := m) (op := op) (show 3 ≤ 7 by omega) ha hx hi hs
    rw [testBit_indexValue_three] at hset hclear
    exact ⟨fun h => hset (by rw [h, Bool.not_false, Bool.or_true]),
      fun h hbit => hclear (by rw [h, hbit, Bool.not_true, Bool.or_false])⟩

/-! ### Small magnitudes -/

/-- No schedule shifts a small index value's bits, 2:0, 3 and 7, to bits 17:16. -/
theorem operandBits_seventeen_sixteen {p : Params} {t : Token} {loc : Fin 3}
    (hsmall : hasIndex p t = true → magnitude p t ≤ 7) {k : Nat} (hk : k < 2) :
    (operandBits p t loc).testBit (16 + k) = false := by
  rw [operandBits, Nat.testBit_or, testBit_bankField_low t loc (by omega), Bool.false_or, indexPart]
  split
  next hi =>
    rcases hs : indexShift t loc with _ | s
    · rw [Option.getD_none, Nat.shiftLeft_zero, indexValue_testBit_small (hsmall hi) (by omega)]
      simp [show ¬ 16 + k = 7 by omega]
    · have hle := bankIndexShift_le loc
      have hplace : s ≤ 8 ∨ s = 11 := by
        rcases indexShift_cases hs with ⟨b, -, rfl⟩ | ⟨-, ⟨-, rfl⟩ | ⟨-, rfl⟩⟩
        exacts [.inl hle, .inr rfl, .inl (by omega)]
      rw [Option.getD_some, Nat.testBit_shiftLeft, indexValue_testBit_small (hsmall hi) (by omega)]
      simp [show ¬ 16 + k - s = 7 by omega]
  next => exact Nat.zero_testBit _

/-- Settles O54: small magnitudes are small indices, which leave the code and the bank bits alone, and no operand
reaches bits 17:16. -/
theorem wordBitsWithSmallMagnitudes : Obligations.WordBitsWithSmallMagnitudes := by
  unfold Obligations.WordBitsWithSmallMagnitudes
  intro p m ops op w hop hw hsmall
  obtain ⟨ha, rfl⟩ := asm_ok_of_lookup hop hw
  have hb : IndicesBelow p ops (2 ^ 19) := small_below hsmall
  have hb' : IndicesBelow p ops (2 ^ 28) := fun x hx => lt_trans (hb x hx) (by norm_num)
  refine ⟨?between, opcField_ruledWord op m ha hb', bankField_ruledWord op m ha hb⟩
  case between =>
    apply BitVec.eq_of_getLsbD_eq
    intro k hk
    have hnone : ((placeOperands ops).any fun x => (operandBits p x.1 x.2).testBit (16 + k)) = false := by
      rw [List.any_eq_false]
      intro x hx
      rw [operandBits_seventeen_sixteen (hsmall x.1 x.2 hx) hk]
      exact Bool.false_ne_true
    rw [BitVec.getLsbD_extractLsb', getLsbD_ruledWord op m ha, hnone]
    simp [show ¬ 28 ≤ 16 + k by omega, show ¬ 16 + k = 15 by omega]

/-! ### Lines with the same word -/

/-- The code of BANK is 0, so its name alone sets no bit. -/
theorem operandBits_of_bank_without_digit {p : Params} {t : Token} (loc : Fin 3) (hb : bankOf t = some .bank)
    (hi : hasIndex p t = false) : operandBits p t loc = 0 := by
  rw [operandBits_of_noIndex hi, bankField_of_bank hb]
  exact Nat.zero_shiftLeft _

theorem operandAccepted_of_bank_without_digit {p : Params} {t : Token} {b : Bank} (loc : Fin 3)
    (hb : bankOf t = some b) (hi : hasIndex p t = false) : OperandAccepted p t loc := by
  simp [OperandAccepted, hb, hi]

/-- Settles O55: the examples by evaluation, and the operand that names BANK alone. -/
theorem encodingIsNotInjective : Obligations.EncodingIsNotInjective := by
  unfold Obligations.EncodingIsNotInjective
  refine ⟨by decide, by decide, by decide, fun p t loc hb hi => ?bankAlone⟩
  case bankAlone =>
    rw [opndEnc_of_accepted (operandAccepted_of_bank_without_digit loc hb hi),
      operandBits_of_bank_without_digit loc hb hi]
    rfl

end Sys2Proof.Machine
end

section
/-! Proofs about the line that stands for a word (log 18; 30_encoding.md R71): it is a cut line that decodes and assembles
to the word, and the machine given the word emits its record. -/

namespace Sys2Proof.Machine

open Sys2Proof

/-! ### The line as an instruction -/

/-- The instruction on a word's line. -/
def wordInstr (op : Op) (w : Word) : Instr := Instr.ofOp op ⟨⟨[], op.spelling ++ aamText w⟩, wordOps w, []⟩

theorem encode_wordInstr (op : Op) (w : Word) : encode (wordInstr op w) = lineOfWord op w := by
  rw [encode_eq_joinLexemes, lineOfWord_eq, wordInstr, ofOp_src]

theorem wordOps_sep_tok {w : Word} {x : Lexeme} (hx : x ∈ wordOps w) :
    x.sep = [0x20] ∧ (x.tok = ascii "BANK" ∨ x.tok = idxTok (wordMagnitude w)) := by
  unfold wordOps at hx
  split at hx
  next => cases hx
  next =>
    simp only [List.mem_cons, List.not_mem_nil, or_false] at hx
    rcases hx with rfl | rfl | rfl
    exacts [⟨rfl, .inl rfl⟩, ⟨rfl, .inl rfl⟩, ⟨rfl, .inr rfl⟩]

theorem idxTok_ne_nil (n : Nat) : idxTok n ≠ [] := by simp [idxTok, (decimalText_spec n).1]

/-- Each operand of a word's line is a token after one space, and holds no LF. -/
theorem wordOps_good {w : Word} {x : Lexeme} (hx : x ∈ wordOps w) : GoodLexeme defaultWsSet x ∧ lf ∉ x.text := by
  obtain ⟨hsep, htok | htok⟩ := wordOps_sep_tok hx
  · rw [Lexeme.text, GoodLexeme, hsep, htok]
    decide
  · rw [Lexeme.text, GoodLexeme, hsep, htok]
    refine ⟨⟨idxTok_ne_nil _, fun b hb => (idxTok_byte hb).1, by decide⟩, fun hlf => ?_⟩
    rcases List.mem_append.1 hlf with h | h
    · revert h; decide
    · exact (idxTok_byte h).2.1 rfl

theorem wordInstr_wf (op : Op) (w : Word) : (wordInstr op w).wf defaultParams = true := by
  obtain ⟨hop, -, hne, hsep, hlf⟩ := mnemonic_facts op (w.getLsbD 15)
  rw [wf_iff, text_eq_joinLexemes, wordInstr, ofOp_src, ofOp_op]
  refine ⟨⟨List.forall_mem_cons.2 ⟨⟨hne, hsep, by simp⟩, fun x hx => (wordOps_good hx).1⟩, fun x hx => ?between, by simp⟩,
    ?noLineFeed, hop⟩
  case between => simp [(wordOps_sep_tok hx).1]
  case noLineFeed =>
    simp only [joinLexemes, List.flatMap_cons, List.append_nil, List.mem_append, List.mem_flatMap, not_or, not_exists,
      not_and]
    exact ⟨hlf, fun x hx => (wordOps_good hx).2⟩

theorem decode_lineOfWord (op : Op) (w : Word) : decode defaultParams (lineOfWord op w) = .ok (wordInstr op w) := by
  rw [← encode_wordInstr]
  exact decodeEncodeRoundTrip defaultParams _ (wordInstr_wf op w)

theorem lf_not_mem_lineOfWord (op : Op) (w : Word) : lf ∉ lineOfWord op w := by
  rw [← encode_wordInstr]
  exact ((wf_iff _ _).1 (wordInstr_wf op w)).2.1

/-! ### The word of the line -/

theorem placeOperands_wordInstr (op : Op) (w : Word) :
    placeOperands (wordInstr op w).src.operandTokens =
      if wordMagnitude w = 0 then []
      else [(ascii "BANK", 0), (ascii "BANK", 1), (idxTok (wordMagnitude w), 2)] := by
  rw [wordInstr, ofOp_src, SourceLine.operandTokens, wordOps]
  split
  next => rfl
  next => rfl

theorem accepted_bank (loc : Fin 3) : OperandAccepted defaultParams (ascii "BANK") loc :=
  operandAccepted_of_bank_without_digit loc (b := .bank) (by decide) (by decide)

theorem operandBits_bank (loc : Fin 3) : operandBits defaultParams (ascii "BANK") loc = 0 :=
  operandBits_of_bank_without_digit loc (by decide) (by decide)

theorem accepted_idxTok {n : Nat} (hn : n < 2 ^ 28) : OperandAccepted defaultParams (idxTok n) 2 := by
  obtain ⟨hbank, hi, hmag, -⟩ := idxTok_facts n
  have hlimit : magnitudeLimit (idxTok n) 2 = 2 ^ 32 := by simp only [magnitudeLimit, hbank]
  refine ⟨.inl (by simp [hbank]), fun _ => ?_, fun h => by rw [hi] at h; cases h⟩
  rw [hmag, hlimit]
  omega

/-- Operand 2 is placed unshifted, and the code of BANK is 0. -/
theorem operandBits_idxTok (n : Nat) : operandBits defaultParams (idxTok n) 2 = n := by
  obtain ⟨hbank, hi, -, hvalue⟩ := idxTok_facts n
  rw [operandBits, bankField_of_bank hbank, indexPart_of_shift (indexShift_of_bank hbank 2), if_pos hi, hvalue]
  exact Nat.zero_or n

theorem operandsAccepted_wordInstr (op : Op) (w : Word) :
    OperandsAccepted defaultParams (wordInstr op w).src.operandTokens := by
  rw [OperandsAccepted, placeOperands_wordInstr]
  split
  next => simp
  next => simpa using ⟨accepted_bank 0, accepted_bank 1, accepted_idxTok (wordMagnitude_lt w)⟩

/-- The operands together set the bits of the magnitude. -/
theorem operand_bits_wordInstr (op : Op) (w : Word) (k : Nat) :
    ((placeOperands (wordInstr op w).src.operandTokens).any fun x => (operandBits defaultParams x.1 x.2).testBit k) =
      (wordMagnitude w).testBit k := by
  rw [placeOperands_wordInstr]
  split
  next h => simp [h]
  next => simp [operandBits_bank, operandBits_idxTok]

/-- A word that carries an operation has the code in bits 31:28 and nothing above. -/
theorem getLsbD_of_decodeOp {w : Word} {op : Op} (h : decodeOp w = some op) {k : Nat} (hk : 28 ≤ k) (hk' : k < 34) :
    w.getLsbD k = op.code.getLsbD (k - 28) := by
  have hbit := congrArg (·.getLsbD (k - 28)) ((decodeOp_eq_some_iff w op).1 h)
  simpa [BitVec.getLsbD_extractLsb', BitVec.getLsbD_setWidth, show k - 28 < 6 by omega,
    show 28 + (k - 28) = k by omega] using hbit

/-- The code, the flag and the magnitude of a word's line are the three parts of the word's bits. -/
theorem asm_lineOfWord {w : Word} {op : Op} (h : decodeOp w = some op) :
    asm defaultParams (tokens defaultParams (lineOfWord op w)) = .ok w := by
  have ha := operandsAccepted_wordInstr op w
  have hflag : flagDec (wordInstr op w).src.mnemonic.tok = w.getLsbD 15 := by
    rw [wordInstr, ofOp_src]
    exact (mnemonic_facts op (w.getLsbD 15)).2.1
  rw [asm_of_decode (decode_lineOfWord op w), assemble_of_accepted _ _ ha, Except.ok.injEq]
  apply BitVec.eq_of_getLsbD_eq
  intro k hk
  rw [getLsbD_ruledWord _ _ ha, hflag, operand_bits_wordInstr, wordMagnitude_testBit, wordInstr, ofOp_op]
  by_cases h28 : 28 ≤ k
  · rw [BitVec.testBit_toNat, ← getLsbD_of_decodeOp h h28 hk]
    simp [h28, show ¬ k = 15 by omega, not_lt.2 h28]
  · by_cases h15 : k = 15
    · simp [h15]
    · simp [h28, h15, not_le.1 h28]

/-! ### The word as the machine's next instruction -/

theorem wordLine_of_decodeOp {w : Word} {op : Op} (h : decodeOp w = some op) : wordLine w = some (lineOfWord op w) := by
  rw [wordLine, h, Option.map_some]

theorem tableWordLine_toNat (w : Word) : tableWordLine w.toNat = wordLine w := by
  rw [tableWordLine, if_pos w.isLt, BitVec.ofNat_toNat, BitVec.setWidth_eq]

theorem withFetchWord_toNat {w : Word} {op : Op} (h : decodeOp w = some op) (s : State) (nbits : Nat) :
    s.withFetchWord nbits w.toNat = s.presentLine (lineOfWord op w) := by
  simp only [State.withFetchWord, tableWordLine_toNat, wordLine_of_decodeOp h]

/-- A presented line without LF is the next line. -/
theorem step_presentLine {s : State} {line : Bytes} (hparams : s.params = defaultParams) (hsink : s.sink.failing = false)
    (hlf : lf ∉ line) :
    ∃ t, step (s.presentLine line) = .next t ∧
      t.sink.records = s.sink.records ++ [lineRecord defaultParams s.idx line] := by
  have hread : readLine (s.presentLine line).source.unread = some (line, s.source.unread) := by
    rw [State.presentLine_source, readLine_of_ne_nil (by simp), cutLine_crlf line _ hlf]
  have hstep := step_emits (s := s.presentLine line) rfl hread
    (lineFits_of_unbounded (by rw [State.presentLine_params, hparams]; rfl) line)
    (indexFits_of_unbounded (by rw [State.presentLine_params, hparams]; rfl) _) hsink
  exact ⟨_, hstep, by simp [hparams]⟩

/-- Settles O33: the line decodes as a well-formed instruction does, its word has the bits of the given one, and the
machine reads it as its next line. -/
theorem everyOperationWordHasALine : Obligations.EveryOperationWordHasALine := by
  unfold Obligations.EveryOperationWordHasALine
  intro w op h
  refine ⟨lineOfWord op w, wordInstr op w, wordLine_of_decodeOp h, decode_lineOfWord op w, ofOp_op _ _, asm_lineOfWord h,
    fun nbits => ?table, fun s nbits hparams hsink => ?step⟩
  case table =>
    rw [decodeTableWord, tableWordLine_toNat, wordLine_of_decodeOp h]
    simp only [decode_lineOfWord, Except.toOption]
  case step =>
    obtain ⟨t, hstep, hrecords⟩ := step_presentLine hparams hsink (lf_not_mem_lineOfWord op w)
    rw [lineRecord, asm_lineOfWord h, recordResult] at hrecords
    exact ⟨t, by rw [withFetchWord_toNat h, hstep], hrecords⟩

end Sys2Proof.Machine
end

section
/-! Proofs about the parallel lanes (70_reset_and_hazards.md R216, R217; 60_exceptions.md R201), from what every event
keeps. -/

namespace Sys2Proof.Machine

open Sys2Proof

/-! ### The order of emission -/

theorem LaneMachine.Good.idx_emitted {input : Bytes} {m : LaneMachine} (h : m.Good input) :
    m.emitted.map Record.idx = List.range m.emitted.length := by
  have hlen := congrArg List.length h.emitted
  rw [List.length_take, length_sequentialRecords] at hlen
  calc m.emitted.map Record.idx = ((sequentialRecords m.params input).take m.emitted.length).map Record.idx := by
        rw [← h.emitted]
    _ = (List.range (streamLines input).length).take m.emitted.length := by
        rw [List.map_take, map_idx_sequentialRecords]
    _ = List.range m.emitted.length := by rw [List.take_range, ← hlen]

/-- With nothing unread, at work or held, every index handed out has been emitted, and every line has one. -/
theorem LaneMachine.Good.emitted_of_drained {input : Bytes} {m : LaneMachine} (h : m.Good input)
    (hd : m.drained = true) : m.emitted = sequentialRecords m.params input := by
  simp only [LaneMachine.drained, Bool.and_eq_true, List.isEmpty_iff] at hd
  obtain ⟨⟨hunread, hbusy⟩, hheld⟩ := hd
  have hcount := h.count
  have hlines := congrArg List.length h.unread
  rw [hbusy, hheld] at hcount
  rw [hunread, List.length_drop] at hlines
  have hall : (sequentialRecords m.params input).length ≤ m.emitted.length := by
    have hnone : (streamLines []).length = 0 := rfl
    have := h.next_le
    rw [length_sequentialRecords]
    simp only [List.length_nil] at hcount
    omega
  rw [h.emitted, List.take_of_length_le hall]

/-- Settles O57: what the events keep holds at the start, so it holds after every schedule. -/
theorem lanesEmitInIndexOrder : Obligations.LanesEmitInIndexOrder := by
  unfold Obligations.LanesEmitInIndexOrder
  intro p input lanes schedule
  have hgood := LaneMachine.good_runSchedule lanes (LaneMachine.good_init p input) schedule
  have hparams : ((LaneMachine.init p input).runSchedule lanes schedule).params = p :=
    LaneMachine.runSchedule_params lanes _ schedule
  refine ⟨?_, hgood.idx_emitted, fun hd => ?_⟩
  · rw [hgood.emitted, hparams]
    exact List.take_prefix _ _
  · rw [hgood.emitted_of_drained hd, hparams]

/-! ### Every run can be finished -/

theorem streamLines_eq_nil {stream : Bytes} (h : streamLines stream = []) : stream = [] := by
  cases stream with
  | nil => rfl
  | cons b rest => rw [streamLines_cons] at h; cases h

/-- By the number of unread lines: let the lanes finish, then take the next line, or emit what is held. -/
theorem drain_all {lanes : Nat} (hlanes : 1 ≤ lanes) (input : Bytes) (lines : List Bytes) :
    ∀ m : LaneMachine, m.Good input → streamLines m.unread = lines →
      ∃ more, (m.runSchedule lanes more).drained = true := by
  induction lines with
  | nil =>
    intro m hgood hlines
    obtain ⟨finishes, hbusy, hunread⟩ := finish_all lanes _ m rfl
    obtain ⟨emits, hbusy', hheld, hunread'⟩ :=
      emit_all lanes input _ _ (LaneMachine.good_runSchedule lanes hgood finishes) hbusy rfl
    refine ⟨finishes ++ emits, ?_⟩
    rw [LaneMachine.runSchedule_append, LaneMachine.drained, hbusy', hheld, hunread', hunread, streamLines_eq_nil hlines]
    rfl
  | cons line lines ih =>
    intro m hgood hlines
    obtain ⟨finishes, hbusy, hunread⟩ := finish_all lanes _ m rfl
    have hgood' := LaneMachine.good_runSchedule lanes hgood finishes
    rcases hread : readLine m.unread with _ | ⟨line', after⟩
    · rw [streamLines_of_eof hread] at hlines; cases hlines
    · rw [streamLines_of_readLine hread, List.cons.injEq] at hlines
      have hidle : 0 < lanes := hlanes
      have htake : ((m.runSchedule lanes finishes).apply lanes .take).unread = after := by
        simp [LaneMachine.apply, hbusy, hunread, hread, hidle]
      obtain ⟨more, hmore⟩ := ih _ (LaneMachine.good_apply lanes hgood' .take) (by rw [htake]; exact hlines.2)
      exact ⟨finishes ++ .take :: more, by rw [LaneMachine.runSchedule_append]; exact hmore⟩

/-- Settles O58: every machine that the events keep right can be drained. -/
theorem lanesCanAlwaysFinish : Obligations.LanesCanAlwaysFinish := by
  unfold Obligations.LanesCanAlwaysFinish
  intro p input lanes schedule hlanes
  exact drain_all hlanes input _ _ (LaneMachine.good_runSchedule lanes (LaneMachine.good_init p input) schedule) rfl

end Sys2Proof.Machine
end
